-- ==== Sys2Proof/Word.lean ====
section
/-! DEFINITION. The widths of the hardware (R4): a register, an address, a memory word and an instruction are 16 bits
(bit 15 the most significant, R6); a character and half a memory word are 8 bits; a register number is 0 to 7. -/

namespace Sys2Proof

/-- A register, an address, a memory word or an instruction: 16 bits (R4, R6). `+` on it is the spec's `+16` (R9). -/
abbrev Word := BitVec 16

/-- A character of the streams (R35), or one half of a memory word in `Host.Cell` form [log 1]. -/
abbrev Byte := BitVec 8

/-- The number of a general register, 0 to 7 (R20, R83): no index is out of range. -/
abbrev Reg := Fin 8

end Sys2Proof
end

