-- ==== Sys2Proof/Syntax.lean ====
section
/-! DEFINITION. The instructions: one constructor per row of spec/opcode_table.json. The 19 main rows partition the
65536 words (R96); the 7 other rows (RET, GETC, OUT, PUTS, IN, HALT, NOP) are subsets of main rows under a mnemonic of
their own, and have a constructor of their own [log 9]. Bits that no field uses are no part of an instruction (R88). -/

namespace Sys2Proof

/-- The sixteen values of the opcode field `instr[15:12]` (R81, R89). -/
inductive Opcode where
  | br | add | ld | st | jsr | and | ldr | str | unlisted1000 | not | ldi | sti | jmp | reserved1101 | lea | trap
  deriving DecidableEq, Repr

/-- The class of a word: the `name` key of the main row of the opcode table that it matches (R96). The `decode`
trace event carries it (R112). -/
inductive RowClass where
  | ADD_REG | ADD_IMM | AND_REG | AND_IMM | NOT | BR | JMP | JSR | JSRR | LD | LDI | LDR | LEA | ST | STI | STR | TRAP
  | RESERVED_1101 | UNLISTED_1000
  deriving DecidableEq, Repr

/-- The instructions, with the operand names of R11. -/
inductive Instr where
  /-- ADD, register form (R120). -/
  | addReg (dr sr1 sr2 : Reg)
  /-- ADD, immediate form (R121). -/
  | addImm (dr sr1 : Reg) (imm5 : BitVec 5)
  /-- AND, register form (R122). -/
  | andReg (dr sr1 sr2 : Reg)
  /-- AND, immediate form (R123). -/
  | andImm (dr sr1 : Reg) (imm5 : BitVec 5)
  /-- NOT (R124). -/
  | notReg (dr sr : Reg)
  /-- BR with its three condition bits (R140). -/
  | br (n z p : Bool) (offset9 : BitVec 9)
  /-- NOP: BR with n = z = p = 0 (R92). -/
  | nop (offset9 : BitVec 9)
  /-- JMP (R141). -/
  | jmp (baseR : Reg)
  /-- RET: JMP with BaseR = 7 (R142). -/
  | ret
  /-- JSR (R143). -/
  | jsr (offset11 : BitVec 11)
  /-- JSRR (R144). -/
  | jsrr (baseR : Reg)
  /-- LD (R130). -/
  | ld (dr : Reg) (offset9 : BitVec 9)
  /-- LDI (R131). -/
  | ldi (dr : Reg) (offset9 : BitVec 9)
  /-- LDR (R132). -/
  | ldr (dr baseR : Reg) (offset6 : BitVec 6)
  /-- LEA (R133). -/
  | lea (dr : Reg) (offset9 : BitVec 9)
  /-- ST (R134). -/
  | st (sr : Reg) (offset9 : BitVec 9)
  /-- STI (R135). -/
  | sti (sr : Reg) (offset9 : BitVec 9)
  /-- STR (R136). -/
  | str (sr baseR : Reg) (offset6 : BitVec 6)
  /-- TRAP with its vector (R150); the decoder uses it for the vectors that name no service (R156). -/
  | trap (trapvect8 : BitVec 8)
  /-- GETC: TRAP 0x20 (R151). -/
  | getc
  /-- OUT: TRAP 0x21 (R152). -/
  | out
  /-- PUTS: TRAP 0x22 (R153). -/
  | puts
  /-- IN: TRAP 0x23 (R154). -/
  | in_
  /-- HALT: TRAP 0x25 (R155). -/
  | halt
  /-- Opcode 1101, reserved (R157). -/
  | reserved1101
  /-- Opcode 1000, not in the document's table (R158). -/
  | unlisted1000
  deriving DecidableEq, Repr

/-- The main row of the opcode table an instruction's words belong to (R96). -/
def Instr.rowClass : Instr → RowClass
  | .addReg _ _ _ => .ADD_REG
  | .addImm _ _ _ => .ADD_IMM
  | .andReg _ _ _ => .AND_REG
  | .andImm _ _ _ => .AND_IMM
  | .notReg _ _ => .NOT
  | .br _ _ _ _ => .BR
  | .nop _ => .BR
  | .jmp _ => .JMP
  | .ret => .JMP
  | .jsr _ => .JSR
  | .jsrr _ => .JSRR
  | .ld _ _ => .LD
  | .ldi _ _ => .LDI
  | .ldr _ _ _ => .LDR
  | .lea _ _ => .LEA
  | .st _ _ => .ST
  | .sti _ _ => .STI
  | .str _ _ _ => .STR
  | .trap _ => .TRAP
  | .getc => .TRAP
  | .out => .TRAP
  | .puts => .TRAP
  | .in_ => .TRAP
  | .halt => .TRAP
  | .reserved1101 => .RESERVED_1101
  | .unlisted1000 => .UNLISTED_1000

end Sys2Proof
end

