-- ==== Sys2Proof/WellFormed.lean ====
section
/-! DEFINITION. Well-formed instructions. Every operand width is in its type, so the one thing left to check is that an
instruction is written under the name the decoder gives its word [log 9]: the words of BR with no condition bit are
NOP's (R92), those of JMP R7 are RET's (R142), those of TRAP with one of the five vectors are that service's (R97). -/

namespace Sys2Proof

/-- The five vectors that name a service (R97). -/
def serviceVectors : List (BitVec 8) := [0x20, 0x21, 0x22, 0x23, 0x25]

/-- The instruction is spelled as the decoder spells it. Every spelling has a meaning; only the well-formed ones are
what the decoder gives. -/
def Instr.wf : Instr → Bool
  | .br n z p _ => n || z || p
  | .jmp baseR => baseR != 7
  | .trap trapvect8 => !serviceVectors.contains trapvect8
  | .addReg _ _ _ | .addImm _ _ _ | .andReg _ _ _ | .andImm _ _ _ | .notReg _ _ | .nop _ | .ret | .jsr _ | .jsrr _
  | .ld _ _ | .ldi _ _ | .ldr _ _ _ | .lea _ _ | .st _ _ | .sti _ _ | .str _ _ _ | .getc | .out | .puts | .in_
  | .halt | .reserved1101 | .unlisted1000 => true

end Sys2Proof
end

