-- ==== Sys2Proof/Decode.lean ====
section
/-! DEFINITION. Decoding (R80 to R97), total on every word, and the encoder, written from the formats of R82. The field
positions are the spec's decision D1 [log 10]; bits no field uses are ignored (R88) [log 13] and encoded as the standard
assembler writes them (R82, last column). -/

namespace Sys2Proof

/-! ## Fields (R82, R83, R84) -/

/-- `instr[hi:lo]` with `hi = lo + n - 1` (R6). -/
def bits (w : Word) (lo n : Nat) : BitVec n := w.extractLsb' lo n

/-- A register field of 3 bits at `lo` (R83). -/
def regField (w : Word) (lo : Nat) : Reg := (bits w lo 3).toFin

/-- One bit of the word as a truth value. -/
def flagBit (w : Word) (i : Nat) : Bool := w.getLsbD i

/-- The opcode named by `instr[15:12]` (R89). -/
def Opcode.ofBits (b : BitVec 4) : Opcode :=
  match b with
  | 0b0000#4 => .br
  | 0b0001#4 => .add
  | 0b0010#4 => .ld
  | 0b0011#4 => .st
  | 0b0100#4 => .jsr
  | 0b0101#4 => .and
  | 0b0110#4 => .ldr
  | 0b0111#4 => .str
  | 0b1000#4 => .unlisted1000
  | 0b1001#4 => .not
  | 0b1010#4 => .ldi
  | 0b1011#4 => .sti
  | 0b1100#4 => .jmp
  | 0b1101#4 => .reserved1101
  | 0b1110#4 => .lea
  | _ => .trap

/-- The TRAP services by their vector (R97); any other vector stays a TRAP (R156). -/
def trapInstr (trapvect8 : BitVec 8) : Instr :=
  if trapvect8 = 0x20 then .getc
  else if trapvect8 = 0x21 then .out
  else if trapvect8 = 0x22 then .puts
  else if trapvect8 = 0x23 then .in_
  else if trapvect8 = 0x25 then .halt
  else .trap trapvect8

/-- BR, or NOP where no condition bit is set (R92). -/
def brInstr (n z p : Bool) (offset9 : BitVec 9) : Instr :=
  if n || z || p then .br n z p offset9 else .nop offset9

/-- JMP, or RET where BaseR is 7 (R142). -/
def jmpInstr (baseR : Reg) : Instr := if baseR = 7 then .ret else .jmp baseR

/-- The decoder: "a single exhaustive tagged-variant match over the 4-bit opcode" (R81), then bit 5 for ADD and AND
(R85), bit 11 for JSR and JSRR (R86), the low byte for TRAP (R97). The same function of the word in every state (R93). -/
def decodeWord (w : Word) : Instr :=
  match Opcode.ofBits (bits w 12 4) with
  | .br => brInstr (flagBit w 11) (flagBit w 10) (flagBit w 9) (bits w 0 9)
  | .add =>
    if flagBit w 5 then .addImm (regField w 9) (regField w 6) (bits w 0 5)
    else .addReg (regField w 9) (regField w 6) (regField w 0)
  | .ld => .ld (regField w 9) (bits w 0 9)
  | .st => .st (regField w 9) (bits w 0 9)
  | .jsr => if flagBit w 11 then .jsr (bits w 0 11) else .jsrr (regField w 6)
  | .and =>
    if flagBit w 5 then .andImm (regField w 9) (regField w 6) (bits w 0 5)
    else .andReg (regField w 9) (regField w 6) (regField w 0)
  | .ldr => .ldr (regField w 9) (regField w 6) (bits w 0 6)
  | .str => .str (regField w 9) (regField w 6) (bits w 0 6)
  | .unlisted1000 => .unlisted1000
  | .not => .notReg (regField w 9) (regField w 6)
  | .ldi => .ldi (regField w 9) (bits w 0 9)
  | .sti => .sti (regField w 9) (bits w 0 9)
  | .jmp => jmpInstr (regField w 6)
  | .reserved1101 => .reserved1101
  | .lea => .lea (regField w 9) (bits w 0 9)
  | .trap => trapInstr (bits w 0 8)

/-! ## Bytes and the table's numbering -/

/-- Why the byte decoder gives no instruction. -/
inductive DecodeReject where
  /-- Fewer than two bytes are left, so there is no 16-bit word (R80). -/
  | truncated
  deriving DecidableEq, Repr

/-- A word from its two bytes in the image format, big-endian (R63). -/
def wordOfBytes (hi lo : Byte) : Word := hi ++ lo

/-- The decoder on a sequence of bytes in the image format (R63): the instruction and the bytes after it. -/
def decodeBytes : List Byte → Except DecodeReject (Instr × List Byte)
  | hi :: lo :: rest => .ok (decodeWord (wordOfBytes hi lo), rest)
  | [_] => .error .truncated
  | [] => .error .truncated

/-- An instruction given as a number whose bits are numbered as spec/opcode_table.json numbers them: one 16-bit word,
bit 0 the least significant; the bits from `nbits` up are 0. -/
def tableWord (nbits w : Nat) : Word := BitVec.ofNat 16 (w % 2 ^ nbits)

/-- What the decoder reads from a row's word. It refuses none: every word decodes (R96). -/
def decodeTableWord (nbits w : Nat) : Option Instr := some (decodeWord (tableWord nbits w))

/-! ## Encoding (R82) -/

/-- The opcode bits of R89. -/
def Opcode.bits : Opcode → BitVec 4
  | .br => 0b0000
  | .add => 0b0001
  | .ld => 0b0010
  | .st => 0b0011
  | .jsr => 0b0100
  | .and => 0b0101
  | .ldr => 0b0110
  | .str => 0b0111
  | .unlisted1000 => 0b1000
  | .not => 0b1001
  | .ldi => 0b1010
  | .sti => 0b1011
  | .jmp => 0b1100
  | .reserved1101 => 0b1101
  | .lea => 0b1110
  | .trap => 0b1111

/-- The three bits of a register field (R83). -/
def regBits (r : Reg) : BitVec 3 := BitVec.ofFin r

/-- Format OP-R. -/
def fmtOpR (op : Opcode) (dr sr1 sr2 : Reg) : Word := op.bits ++ regBits dr ++ regBits sr1 ++ 0b000#3 ++ regBits sr2

/-- Format OP-I. -/
def fmtOpI (op : Opcode) (dr sr1 : Reg) (imm5 : BitVec 5) : Word :=
  op.bits ++ regBits dr ++ regBits sr1 ++ 0b1#1 ++ imm5

/-- Format PC9. -/
def fmtPc9 (op : Opcode) (r : Reg) (offset9 : BitVec 9) : Word := op.bits ++ regBits r ++ offset9

/-- Format BASE6; with `offset6 = 111111` it is also format NOT as assembled. -/
def fmtBase6 (op : Opcode) (r baseR : Reg) (offset6 : BitVec 6) : Word :=
  op.bits ++ regBits r ++ regBits baseR ++ offset6

/-- Format BR. -/
def fmtBr (n z p : Bool) (offset9 : BitVec 9) : Word :=
  Opcode.br.bits ++ BitVec.ofBool n ++ BitVec.ofBool z ++ BitVec.ofBool p ++ offset9

/-- Formats JMP and JSRR as assembled: zeros around BaseR. -/
def fmtJump (op : Opcode) (baseR : Reg) : Word := op.bits ++ 0b000#3 ++ regBits baseR ++ 0b000000#6

/-- Format JSR. -/
def fmtJsr (offset11 : BitVec 11) : Word := Opcode.jsr.bits ++ 0b1#1 ++ offset11

/-- Format TRAP as assembled. -/
def fmtTrap (trapvect8 : BitVec 8) : Word := Opcode.trap.bits ++ 0b0000#4 ++ trapvect8

/-- Format NONE; the twelve low bits are ignored, zeros here. -/
def fmtNone (op : Opcode) : Word := op.bits ++ 0#12

/-- The word of an instruction. -/
def encode : Instr → Word
  | .addReg dr sr1 sr2 => fmtOpR .add dr sr1 sr2
  | .addImm dr sr1 imm5 => fmtOpI .add dr sr1 imm5
  | .andReg dr sr1 sr2 => fmtOpR .and dr sr1 sr2
  | .andImm dr sr1 imm5 => fmtOpI .and dr sr1 imm5
  | .notReg dr sr => fmtBase6 .not dr sr 0b111111#6
  | .br n z p offset9 => fmtBr n z p offset9
  | .nop offset9 => fmtBr false false false offset9
  | .jmp baseR => fmtJump .jmp baseR
  | .ret => fmtJump .jmp 7
  | .jsr offset11 => fmtJsr offset11
  | .jsrr baseR => fmtJump .jsr baseR
  | .ld dr offset9 => fmtPc9 .ld dr offset9
  | .ldi dr offset9 => fmtPc9 .ldi dr offset9
  | .ldr dr baseR offset6 => fmtBase6 .ldr dr baseR offset6
  | .lea dr offset9 => fmtPc9 .lea dr offset9
  | .st sr offset9 => fmtPc9 .st sr offset9
  | .sti sr offset9 => fmtPc9 .sti sr offset9
  | .str sr baseR offset6 => fmtBase6 .str sr baseR offset6
  | .trap trapvect8 => fmtTrap trapvect8
  | .getc => fmtTrap 0x20
  | .out => fmtTrap 0x21
  | .puts => fmtTrap 0x22
  | .in_ => fmtTrap 0x23
  | .halt => fmtTrap 0x25
  | .reserved1101 => fmtNone .reserved1101
  | .unlisted1000 => fmtNone .unlisted1000

/-! ## The opcode table's main rows (R96) -/

/-- A main row of spec/opcode_table.json: its name, and the words it matches. -/
structure TableRow where
  cls : RowClass
  mask : Word
  pattern : Word
  deriving DecidableEq, Repr

/-- The word matches the row. -/
def TableRow.admits (r : TableRow) (w : Word) : Bool := w &&& r.mask == r.pattern

/-- The nineteen main rows, in the table's order. -/
def mainRows : List TableRow :=
  [⟨.ADD_REG, 0xF020, 0x1000⟩, ⟨.ADD_IMM, 0xF020, 0x1020⟩, ⟨.AND_REG, 0xF020, 0x5000⟩, ⟨.AND_IMM, 0xF020, 0x5020⟩,
   ⟨.NOT, 0xF000, 0x9000⟩, ⟨.BR, 0xF000, 0x0000⟩, ⟨.JMP, 0xF000, 0xC000⟩, ⟨.JSR, 0xF800, 0x4800⟩] ++
  [⟨.JSRR, 0xF800, 0x4000⟩, ⟨.LD, 0xF000, 0x2000⟩, ⟨.LDI, 0xF000, 0xA000⟩, ⟨.LDR, 0xF000, 0x6000⟩,
   ⟨.LEA, 0xF000, 0xE000⟩, ⟨.ST, 0xF000, 0x3000⟩, ⟨.STI, 0xF000, 0xB000⟩, ⟨.STR, 0xF000, 0x7000⟩] ++
  [⟨.TRAP, 0xF000, 0xF000⟩, ⟨.RESERVED_1101, 0xF000, 0xD000⟩, ⟨.UNLISTED_1000, 0xF000, 0x8000⟩]

/-- The bits of a word that the instruction it decodes to does not use (R82, R88): as a mask, per main row. -/
def RowClass.ignoredBits : RowClass → Word
  | .ADD_REG | .AND_REG => 0x0018
  | .NOT => 0x003F
  | .JMP => 0x0E3F
  | .JSRR => 0x063F
  | .TRAP => 0x0F00
  | .RESERVED_1101 | .UNLISTED_1000 => 0x0FFF
  | .ADD_IMM | .AND_IMM | .BR | .JSR | .LD | .LDI | .LDR | .LEA | .ST | .STI | .STR => 0x0000

end Sys2Proof
end

