-- ==== Sys2Proof/Config.lean ====
section
/-! DEFINITION. What is fixed for the machine: the size of memory (R4), and the one open parameter that the machine is
configured with, the prompt of IN (R5, D15). The other open parameters of R5 are arguments of driver operations
(`preserve_memory`, `allow_wrap`) or state (the input stream). -/

namespace Sys2Proof.Config

/-- MEMWORDS, the number of memory words: "fixed size 65536" (R4). -/
def memWords : Nat := 65536

/-- `IN_PROMPT` (R5, R154): a finite sequence of 8-bit characters, possibly empty, whose text no source gives. It has
no body, so a claim about IN holds for every prompt. DESIGN CHOICE [log 2], safe. -/
opaque inPrompt : List Byte

end Sys2Proof.Config
end

