-- ==== Sys2Proof/Machine/State.lean ====
section
/-! DEFINITION. The state of one engine instance (R20 to R40), plain data, and its values after reset (R38). The
fields and the rules that name them are listed in INVENTORY.md under State. -/

namespace Sys2Proof.Machine

/-- The category of a 16-bit result (R26): the condition flag that is true. -/
inductive Cat where
  | N | Z | P
  deriving DecidableEq, Repr

/-- The error kinds that a `set_clock` call can report (R115, R170). -/
inductive ErrorKind where
  /-- Opcode 1101 or 1000 (R171): fatal to the run, `is_running` cleared. -/
  | illegalOpcode
  /-- A TRAP whose vector names no service (R172): `is_running` stays true. -/
  | unknownTrap
  /-- A character stream failed (R174): `is_running` stays true. -/
  | ioError
  deriving DecidableEq, Repr

/-- What a `register-write` event names: R0 to R7, or the PC (R112). -/
inductive RegName where
  | gpr (r : Reg)
  | pc
  deriving DecidableEq, Repr

/-- The eight kinds of trace event with their payloads (R34, R112) [log 15]. -/
inductive Event where
  | edgeRising
  | edgeFalling
  | fetch (word : Word)
  | decode (word : Word) (cls : RowClass)
  | registerWrite (reg : RegName) (value : Word)
  | memoryWrite (addr value : Word)
  | conditionUpdate (cat : Cat)
  | halt
  deriving DecidableEq, Repr

/-- What the next calls on the input stream meet, head first (R160, R162) [log 3]. -/
inductive InItem where
  /-- A character the host has supplied. -/
  | char (c : Byte)
  /-- One call that fails. -/
  | fail
  deriving DecidableEq, Repr

/-- The service a call is held in. -/
inductive Held where
  /-- GETC waits for a character (R151, R160). -/
  | getc
  /-- IN has written its prompt and waits for a character (R154, R160). -/
  | in_
  /-- PUTS has gone round the whole memory and met no zero word (R153). -/
  | puts
  deriving DecidableEq, Repr

/-- A driver call that has not returned, because its service holds inside step 3 (R114) [log 5, log 6]. -/
structure Hold where
  /-- The service that holds. -/
  service : Held
  /-- The call is `step()`, which still owes its last rising edge (R109), rather than a single `set_clock`. -/
  byStep : Bool
  deriving DecidableEq, Repr

/-- The execution state machine's states (R39). -/
inductive EsmState where
  | Idle | ClockHigh | ClockLow
  deriving DecidableEq, Repr

/-- The store as `Host.Cell` bytes [log 1]: word `a` of the address space is byte `2a` (bits 15 to 8) and byte `2a+1`
(bits 7 to 0). A byte that is not listed reads 0 (R53). `Memory.wf` is the canonical form. -/
abbrev Memory := List Host.Cell

/-- The whole state. -/
structure State where
  /-- R0 to R7 (R20). -/
  regs : Vector Word 8
  /-- The program counter (R22). -/
  pc : Word
  /-- The condition flags N, Z, P: none true, or exactly one (R24). -/
  flags : Option Cat
  /-- The clock level last delivered (R28). -/
  clk : Bool
  /-- `is_running` (R29). -/
  isRunning : Bool
  /-- `tracing` (R30). -/
  tracing : Bool
  /-- The instruction latch (R31). -/
  instr : Option Word
  /-- An edge has been delivered since construction or reset (R39) [log 19]. -/
  edgeSeen : Bool
  /-- The 65536 words (R33). -/
  mem : Memory
  /-- The trace log, oldest event first (R34). -/
  trace : List Event
  /-- The input stream, head first (R35, R160) [log 3]. -/
  input : List InItem
  /-- A call on the input stream fails, rather than waits, when `input` is empty (R160) [log 3]. -/
  inputClosed : Bool
  /-- The output stream, oldest character first (R35, R161). -/
  output : List Byte
  /-- Whether each coming OutWrite fails, head first (R162) [log 3]. -/
  outFails : List Bool
  /-- Whether an OutWrite fails when `outFails` is empty [log 3]. -/
  outputClosed : Bool
  /-- The driver call in progress, if its service holds (R114) [log 5, log 6]. -/
  hold : Option Hold
  /-- What the latest `set_clock` or `step()` returned: none is `ok` (R115) [log 7]. -/
  report : Option ErrorKind
  deriving DecidableEq, Repr

/-- What ends an operation with nothing done. No instruction raises one: every word has an effect in every state. -/
inductive Fault where
  /-- The loader's error of R62, R173, raised by the driver's load operations only ("loader only, fatal to that call"):
  the sequence would pass address 65535 and the caller did not allow it. Safe: the spec says the call fails and writes
  nothing. -/
  | addressOverflow
  deriving DecidableEq, Repr

/-- What the model declines by name. No instruction is declined. -/
inductive Refusal where
  /-- An instruction with no meaning yet, named in its arm of `exec`; none is left. Safe. -/
  | notModelled (mnemonic : String)
  /-- A driver operation while another call is in progress, held in a TRAP service; raised by the operations of
  Machine/Driver.lean. The spec's driver never does that (R100, R209). Safe. -/
  | callInProgress
  /-- A load while `is_running` is true, which the spec does not admit (R61, R209); raised by the load operations. Safe. -/
  | loadWhileRunning
  /-- A byte image of odd length or with no origin word, or an odd number of hexadecimal digits (R63, D19); raised by the
  image load operations. Safe. -/
  | malformedImage
  deriving DecidableEq, Repr

/-- The machine after construction and after a reset that does not preserve memory (R38, R200). The values of the
streams and of the model's own fields `hold` and `report` are named in log entries 4, 5 and 7. -/
def State.reset : State where
  regs := Vector.replicate 8 0
  pc := 0
  flags := none
  clk := false
  isRunning := false
  tracing := false
  instr := none
  edgeSeen := false
  mem := []
  trace := []
  input := []
  inputClosed := false
  output := []
  outFails := []
  outputClosed := false
  hold := none
  report := none

end Sys2Proof.Machine
end

