-- ==== Sys2Proof/Machine/Ops.lean ====
section
/-! DEFINITION. The shared operations of the execute steps: the primitives of R10 over registers, PC, memory, trace and
streams, and taking an error. `Trace` never changes what an operation computes (R111). -/

namespace Sys2Proof.Machine

/-! ## Memory (R50 to R60) -/

/-- The byte of a cell number; 0 where none is listed (R53). -/
def Memory.byteAt : Memory → Nat → Byte
  | [], _ => 0
  | (a, b) :: rest, k => if a = k then b else Memory.byteAt rest k

/-- The list without the cell `k`. -/
def Memory.dropKey (m : Memory) (k : Nat) : Memory := m.filter (fun c => c.1 != k)

/-- The cell `(k, b)` put in its place in a list with rising keys. -/
def Memory.insertKey : Memory → Nat → Byte → Memory
  | [], k, b => [(k, b)]
  | (a, c) :: rest, k, b => if k < a then (k, b) :: (a, c) :: rest else (a, c) :: Memory.insertKey rest k b

/-- Write one byte, keeping the canonical form: a zero byte is not listed. -/
def Memory.setByte (m : Memory) (k : Nat) (b : Byte) : Memory :=
  if b = 0 then m.dropKey k else (m.dropKey k).insertKey k b

/-- `read(addr)` (R51): total, no side effect. High byte first, as the image format has it [log 1]. -/
def Memory.read (m : Memory) (a : Word) : Word := m.byteAt (2 * a.toNat) ++ m.byteAt (2 * a.toNat + 1)

/-- `write(addr, value)` (R52): total, replaces that one word. -/
def Memory.write (m : Memory) (a v : Word) : Memory :=
  (m.setByte (2 * a.toNat) (v.extractLsb' 8 8)).setByte (2 * a.toNat + 1) (v.extractLsb' 0 8)

/-- The canonical form: keys strictly rising, no zero byte listed, every key inside the 65536 words ("never
resized", R33). -/
def Memory.wf (m : Memory) : Bool :=
  decide (m.Pairwise (fun c d => c.1 < d.1)) && m.all (fun c => c.2 != 0 && decide (c.1 < 2 * Config.memWords))

/-! ## Trace (R111) -/

/-- `Trace(e)`: append one event if `tracing` is true, else nothing. -/
def State.emit (e : Event) (s : State) : State := { s with trace := if s.tracing then s.trace ++ [e] else s.trace }

/-! ## Registers and PC (R20, R22, R23) -/

/-- `x[r]`. -/
def State.reg (s : State) (r : Reg) : Word := s.regs[r.val]'r.isLt

/-- `set(r, value)` of the register file, which traces nothing itself (R20). -/
def State.setReg (r : Reg) (v : Word) (s : State) : State := { s with regs := s.regs.set r.val v r.isLt }

/-- `x[r] <- v`: the write, then its event (R10). -/
def State.writeReg (r : Reg) (v : Word) (s : State) : State := (s.setReg r v).emit (.registerWrite (.gpr r) v)

/-- `pc <- target`: an execute-phase write, then its event (R10). -/
def State.writePc (target : Word) (s : State) : State := ({ s with pc := target } : State).emit (.registerWrite .pc target)

/-- `MemWrite(addr, 1, v)` of an instruction: the write, then its event (R52). -/
def State.memWrite (a v : Word) (s : State) : State :=
  ({ s with mem := s.mem.write a v } : State).emit (.memoryWrite a v)

/-! ## Errors (R170 to R180)

There is no handler: nothing is saved, nothing is vectored, the pc is not redirected (R179), and there is no return
from a trap (R180). Taking an error is reporting it to the driver; every effect already applied stays (R188). -/

/-- `raise <Error>`: the kind goes to the driver as the outcome of its call (R115) [log 7]. -/
def State.raise (e : ErrorKind) (s : State) : State := { s with report := some e }

/-- `is_running <- false`. -/
def State.stopRunning (s : State) : State := { s with isRunning := false }

/-- `IllegalOpcode` (R157, R171): `is_running` cleared, error reported, nothing else. -/
def State.illegalOpcode (s : State) : State := s.stopRunning.raise .illegalOpcode

/-- The service cannot go on yet: the call does not return (R114) [log 5, log 6]. -/
def State.holdIn (h : Held) (s : State) : State := { s with hold := some ⟨h, false⟩ }

/-! ## The character ports (R160 to R163) -/

/-- How a call on the input stream ends. -/
inductive InResult where
  /-- It takes a character. -/
  | char (c : Byte) (s : State)
  /-- It fails (R162). -/
  | fails (s : State)
  /-- There is no character yet (R160). -/
  | waits (s : State)

/-- How a call on the output stream ends; it never waits for the host. -/
inductive OutResult where
  /-- The character is on the stream. -/
  | done (s : State)
  /-- It fails (R162). -/
  | fails (s : State)

/-- The head of the input stream is used up. -/
def State.takeInput (s : State) : State := { s with input := s.input.tail }

/-- The verdict on the coming output call is used up. -/
def State.takeVerdict (s : State) : State := { s with outFails := s.outFails.tail }

/-- One character more on the output stream. -/
def State.appendOutput (b : Byte) (s : State) : State := { s with output := s.output ++ [b] }

/-- `InRead()`: take the head of the input stream; wait where there is none yet (R160). -/
def inRead (s : State) : InResult :=
  match s.input with
  | .char c :: _ => .char c s.takeInput
  | .fail :: _ => .fails s.takeInput
  | [] => if s.inputClosed then .fails s else .waits s

/-- `OutWrite(b)`: append to the output stream, or fail (R161, R162). -/
def outWrite (b : Byte) (s : State) : OutResult :=
  match s.outFails with
  | true :: _ => .fails s.takeVerdict
  | false :: _ => .done (s.takeVerdict.appendOutput b)
  | [] => if s.outputClosed then .fails s else .done (s.appendOutput b)

/-- `OutWrite` of each character in order, up to the first failure. -/
def outWriteAll : List Byte → State → OutResult
  | [], s => .done s
  | b :: rest, s =>
    match outWrite b s with
    | .done t => outWriteAll rest t
    | .fails t => .fails t

/-- The service goes on after the output call, or ends with `IoError` (R162). -/
def OutResult.andThen (go : State → State) : OutResult → State
  | .done s => go s
  | .fails s => s.raise .ioError

/-- The service goes on with the character, ends with `IoError` (R162), or holds (R160). -/
def InResult.andThen (h : Held) (go : Byte → State → State) : InResult → State
  | .char c s => go c s
  | .fails s => s.raise .ioError
  | .waits s => s.holdIn h

end Sys2Proof.Machine
end

