-- ==== Sys2Proof/Machine/Flags.lean ====
section
/-! DEFINITION. The condition-code evaluator (R26), setting the flags, and the test of BR (R140). -/

namespace Sys2Proof.Machine

/-- `sign_category` (R26). -/
def signCategory (v : Word) : Cat := if v.getLsbD 15 then .N else if v = 0 then .Z else .P

/-- `SetCC(v)` (R26): exactly one flag true; its event is appended also when the category does not change. -/
def State.setCC (v : Word) (s : State) : State :=
  ({ s with flags := some (signCategory v) } : State).emit (.conditionUpdate (signCategory v))

/-- The flag N. -/
def State.flagN (s : State) : Bool := s.flags == some .N

/-- The flag Z. -/
def State.flagZ (s : State) : Bool := s.flags == some .Z

/-- The flag P. -/
def State.flagP (s : State) : Bool := s.flags == some .P

/-- BR's test (R140): a flag that is true has its bit set in the instruction. With no flag true it is false (R27). -/
def branchTaken (n z p : Bool) (s : State) : Bool := (n && s.flagN) || (z && s.flagZ) || (p && s.flagP)

/-- `x[DR] <- v; SetCC(v)`, the end of every flag-setting instruction (R25, R110). -/
def State.writeResult (dr : Reg) (v : Word) (s : State) : State := (s.writeReg dr v).setCC v

end Sys2Proof.Machine
end

