-- ==== Sys2Proof/Machine/Operands.lean ====
section
/-! DEFINITION. Sign and zero extension (R7, R8) and the three addressing modes (R137). Every sum wraps modulo 65536
(R60); `pc` is the incremented PC (R22). -/

namespace Sys2Proof.Machine

/-- `0xFFFF << n`, cut to 16 bits (R7). -/
def signFill (n : Nat) : Word := 0xFFFF#16 <<< n

/-- `sext_N(f)` (R7): "if the high bit of the N-bit field is 1, OR the field with `0xFFFF << N`". -/
def sext {n : Nat} (f : BitVec n) : Word := if f.msb then f.setWidth 16 ||| signFill n else f.setWidth 16

/-- The sign extension of R7 applied again to a 16-bit value, at width `n`. -/
def reextend (n : Nat) (v : Word) : Word := if v.getLsbD (n - 1) then v ||| signFill n else v

/-- `zext_16` of an 8-bit character (R8, R151). -/
def zext (c : Byte) : Word := c.setWidth 16

/-- The low byte `v[7:0]` (R152). -/
def lowByte (v : Word) : Byte := v.extractLsb' 0 8

/-- PC-relative: `pc +16 sext_9(offset9)`. -/
def eaPc9 (offset9 : BitVec 9) (s : State) : Word := s.pc + sext offset9

/-- Indirect: the word at the PC-relative address is the address. -/
def eaIndirect (offset9 : BitVec 9) (s : State) : Word := s.mem.read (eaPc9 offset9 s)

/-- Base plus offset: `x[BaseR] +16 sext_6(offset6)`. -/
def eaBase6 (baseR : Reg) (offset6 : BitVec 6) (s : State) : Word := s.reg baseR + sext offset6

/-- The target of JSR: `pc +16 sext_11(offset11)` (R143). -/
def targetPc11 (offset11 : BitVec 11) (s : State) : Word := s.pc + sext offset11

end Sys2Proof.Machine
end

