-- ==== Sys2Proof/Machine/Control.lean ====
section
/-! DEFINITION. BR, JMP, RET, JSR, JSRR (R140 to R144) and NOP (R92). `s.pc` is the incremented PC; there is no delay
slot (R206), and any 16-bit value is a legal target (R146). -/

namespace Sys2Proof.Machine

/-- The execute step of BR (R140): a taken branch always writes the PC and appends the event, an untaken one does
neither. -/
def State.branch (n z p : Bool) (offset9 : BitVec 9) (s : State) : State :=
  if branchTaken n z p s then s.writePc (eaPc9 offset9 s) else s

/-- The link write of JSR and JSRR: `x[7] <- pc` (R143, R144). -/
def State.link (s : State) : State := s.writeReg 7 s.pc

/-- R140. -/
def execBr (n z p : Bool) (offset9 : BitVec 9) (s : State) : Host.Outcome State Fault Refusal :=
  .next (s.branch n z p offset9)

/-- R92: a BR with n = z = p = 0. -/
def execNop (offset9 : BitVec 9) (s : State) : Host.Outcome State Fault Refusal :=
  .next (s.branch false false false offset9)

/-- R141. -/
def execJmp (baseR : Reg) (s : State) : Host.Outcome State Fault Refusal := .next (s.writePc (s.reg baseR))

/-- R142: JMP R7. -/
def execRet (s : State) : Host.Outcome State Fault Refusal := .next (s.writePc (s.reg 7))

/-- R143: the link first, then the PC; the target is from the incremented PC, which the link write does not change. -/
def execJsr (offset11 : BitVec 11) (s : State) : Host.Outcome State Fault Refusal :=
  .next (s.link.writePc (targetPc11 offset11 s))

/-- R144: the link first, then BaseR is read, so `JSRR R7` goes to the incremented PC [log 11]. -/
def execJsrr (baseR : Reg) (s : State) : Host.Outcome State Fault Refusal :=
  .next (s.link.writePc (s.link.reg baseR))

end Sys2Proof.Machine
end

