-- ==== Sys2Proof/Machine/DataMovement.lean ====
section
/-! DEFINITION. LD, LDI, LDR, LEA, ST, STI, STR (R130 to R136): one whole word moved, the base register unchanged, the
addresses read before anything is written. The loads and LEA set the flags, the stores do not. -/

namespace Sys2Proof.Machine

/-- R130. -/
def execLd (dr : Reg) (offset9 : BitVec 9) (s : State) : Host.Outcome State Fault Refusal :=
  .next (s.writeResult dr (s.mem.read (eaPc9 offset9 s)))

/-- R131: the pointer is read first, then the data. -/
def execLdi (dr : Reg) (offset9 : BitVec 9) (s : State) : Host.Outcome State Fault Refusal :=
  .next (s.writeResult dr (s.mem.read (eaIndirect offset9 s)))

/-- R132. -/
def execLdr (dr baseR : Reg) (offset6 : BitVec 6) (s : State) : Host.Outcome State Fault Refusal :=
  .next (s.writeResult dr (s.mem.read (eaBase6 baseR offset6 s)))

/-- R133: no memory access; in this engine LEA sets the flags. -/
def execLea (dr : Reg) (offset9 : BitVec 9) (s : State) : Host.Outcome State Fault Refusal :=
  .next (s.writeResult dr (eaPc9 offset9 s))

/-- R134. -/
def execSt (sr : Reg) (offset9 : BitVec 9) (s : State) : Host.Outcome State Fault Refusal :=
  .next (s.memWrite (eaPc9 offset9 s) (s.reg sr))

/-- R135: a read of the pointer, then the write. -/
def execSti (sr : Reg) (offset9 : BitVec 9) (s : State) : Host.Outcome State Fault Refusal :=
  .next (s.memWrite (eaIndirect offset9 s) (s.reg sr))

/-- R136. -/
def execStr (sr baseR : Reg) (offset6 : BitVec 6) (s : State) : Host.Outcome State Fault Refusal :=
  .next (s.memWrite (eaBase6 baseR offset6 s) (s.reg sr))

end Sys2Proof.Machine
end

