-- ==== Sys2Proof/Machine/Trap.lean ====
section
/-! DEFINITION. TRAP, its services (R150 to R156) and the two opcodes that fault (R157, R158). A service is performed
inside the TRAP's own cascade: no link in R7, no vector table, no flag, no change of the PC (R150) [log 18]. -/

namespace Sys2Proof.Machine

/-! ## The services -/

/-- GETC (R151): the character to R0, high byte zero, no echo, no flag [log 16]. -/
def State.getc (s : State) : State := (inRead s).andThen .getc (fun c t => t.writeReg 0 (zext c))

/-- OUT (R152): the low byte of R0. -/
def State.out (s : State) : State := (outWrite (lowByte (s.reg 0)) s).andThen id

/-- The loop of PUTS (R153) for at most `fuel` words from address `a`: stop at a zero word, else write its low byte and
go on. When the fuel is used up the call does not return. -/
def putsLoop : Nat → Word → State → State
  | 0, _, s => s.holdIn .puts
  | fuel + 1, a, s =>
    if s.mem.read a = 0 then s
    else
      (outWrite (lowByte (s.mem.read a)) s).andThen (fun t => putsLoop fuel (a + 1) t)

/-- PUTS (R153) from the address in R0. The fuel is one word per address: after that many words without a zero the
loop is back at the address in R0 and can never end by itself, so the call holds there, and goes round again when the
driver's call is continued [log 6]. -/
def State.puts (s : State) : State := putsLoop Config.memWords (s.reg 0) s

/-- IN after its prompt (R154): read, echo, store. R0 is written only if every stream call succeeded. -/
def State.inAfterPrompt (s : State) : State :=
  (inRead s).andThen .in_ (fun c t => (outWrite c t).andThen (fun u => u.writeReg 0 (zext c)))

/-- IN (R154) with the prompt as an argument: prompt, read, echo, store. -/
def State.inWith (prompt : List Byte) (s : State) : State :=
  (outWriteAll prompt s).andThen (fun t => t.inAfterPrompt)

/-- HALT (R155), which is step 4 of the cascade (R106): the event, then `is_running` cleared. -/
def State.halt (s : State) : State := (s.emit .halt).stopRunning

/-- The shim's dispatch on the vector (R150); any other vector reports `UnknownTrap` and changes nothing (R156). -/
def State.trap (trapvect8 : BitVec 8) (s : State) : State :=
  if trapvect8 = 0x20 then s.getc
  else if trapvect8 = 0x21 then s.out
  else if trapvect8 = 0x22 then s.puts
  else if trapvect8 = 0x23 then s.inWith Config.inPrompt
  else if trapvect8 = 0x25 then s.halt
  else s.raise .unknownTrap

/-- A held service goes on: GETC and IN try their read again, PUTS goes round again (R114, R160, R153). -/
def State.continueService (h : Held) (s : State) : State :=
  match h with
  | .getc => s.getc
  | .in_ => s.inAfterPrompt
  | .puts => s.puts

/-! ## The instructions -/

/-- R150, R156. -/
def execTrap (trapvect8 : BitVec 8) (s : State) : Host.Outcome State Fault Refusal := .next (s.trap trapvect8)

/-- R151. -/
def execGetc (s : State) : Host.Outcome State Fault Refusal := .next s.getc

/-- R152. -/
def execOut (s : State) : Host.Outcome State Fault Refusal := .next s.out

/-- R153. -/
def execPuts (s : State) : Host.Outcome State Fault Refusal := .next s.puts

/-- R154. -/
def execIn (s : State) : Host.Outcome State Fault Refusal := .next (s.inWith Config.inPrompt)

/-- R155. -/
def execHalt (s : State) : Host.Outcome State Fault Refusal := .next s.halt

/-- R157: opcode 1101. -/
def execReserved1101 (s : State) : Host.Outcome State Fault Refusal := .next s.illegalOpcode

/-- R158: opcode 1000, with the semantics of R157 [log 12]. -/
def execUnlisted1000 (s : State) : Host.Outcome State Fault Refusal := .next s.illegalOpcode

end Sys2Proof.Machine
end

