-- ==== Sys2Proof/Machine/Cycle.lean ====
section
/-! DEFINITION. The clock and the cascade (R100 to R109): edges, fetch, increment, decode, and the driver's `step()`. -/

namespace Sys2Proof.Machine

/-- The execution state machine's state (R39). -/
def State.esm (s : State) : EsmState := if s.clk then .ClockHigh else if s.edgeSeen then .ClockLow else .Idle

/-- `set_clock(true)`: a rising edge (R101), or nothing where `clk` is already true (R108). -/
def State.raiseClock (s : State) : State :=
  if s.clk then s else ({ s with clk := true, edgeSeen := true } : State).emit .edgeRising

/-- The level goes down and the edge is recorded (R102, R107). -/
def State.recordFalling (s : State) : State :=
  ({ s with clk := false, edgeSeen := true } : State).emit .edgeFalling

/-- Step 1 (R103): the word at the PC to the latch. -/
def State.fetch (s : State) : State :=
  ({ s with instr := some (s.mem.read s.pc) } : State).emit (.fetch (s.mem.read s.pc))

/-- Step 2 (R104): no event. -/
def State.incrementPc (s : State) : State := { s with pc := s.pc + 1 }

/-- The start of step 3 (R105): the event with the word's class. -/
def State.noteDecode (w : Word) (s : State) : State := s.emit (.decode w (decodeWord w).rowClass)

/-- The word the next cascade executes. -/
def State.nextWord (s : State) : Word := s.mem.read s.pc

/-- Everything a running falling edge does before the execute step. -/
def State.beforeExecute (s : State) : State := (s.recordFalling.fetch.incrementPc).noteDecode s.nextWord

/-- A falling edge (R102, R107), or nothing where `clk` is already false (R108). -/
def fallingEdge (s : State) : Host.Outcome State Fault Refusal :=
  if !s.clk then .next s
  else if s.isRunning then exec (decodeWord s.nextWord) s.beforeExecute
  else .next s.recordFalling

/-- A new `set_clock` or `step()` call: nothing is reported yet (R115). -/
def State.beginCall (s : State) : State := { s with report := none }

/-- The end of `step()`: the last rising edge (R109), which is still owed where the service holds. -/
def State.endStep (s : State) : State :=
  match s.hold with
  | none => s.raiseClock
  | some h => { s with hold := some { h with byStep := true } }

/-- `step()` (R109): `set_clock(true); set_clock(false); set_clock(true)`, reporting what the falling edge reported. -/
def stepCall (s : State) : Host.Outcome State Fault Refusal :=
  match fallingEdge s.beginCall.raiseClock with
  | .next t => .next t.endStep
  | .fault r => .fault r
  | .refused r => .refused r

/-- The call that holds goes on (R114, R160). Where the service still holds, it is the same call that holds; where it
has ended, a `step()` still gives its last rising edge. -/
def State.continueCall (h : Hold) (s : State) : State :=
  let t := ({ s with hold := none } : State).continueService h.service
  match t.hold with
  | none => if h.byStep then t.raiseClock else t
  | some g => { t with hold := some { g with byStep := h.byStep } }

/-- One step of the interface: the driver's `step()`, or the held call going on [log 8]. -/
def stepOrContinue (s : State) : Host.Outcome State Fault Refusal :=
  match s.hold with
  | none => stepCall s
  | some h => .next (s.continueCall h)

/-- `set_clock(b)` (R100): one edge or none. -/
def setClock (b : Bool) (s : State) : Host.Outcome State Fault Refusal :=
  if s.hold.isSome then .refused .callInProgress
  else if b then .next s.beginCall.raiseClock
  else fallingEdge s.beginCall

end Sys2Proof.Machine
end

