-- ==== Sys2Proof/Machine/Step.lean ====
section
/-! DEFINITION. The step of the interface, and placing one word where the next step fetches it. -/

namespace Sys2Proof.Machine

/-- One step: the driver's `step()`, "equivalent to one instruction" (R109); where a call holds in a TRAP service, that
call going on (R114) [log 8]. -/
def step : State → Host.Outcome State Fault Refusal := stepOrContinue

/-- The word stored at the PC, the engine started, no call in progress: the next step fetches and runs that word
[log 8]. -/
def State.withFetchWord (s : State) (nbits w : Nat) : State :=
  { s with mem := s.mem.write s.pc (tableWord nbits w), isRunning := true, hold := none }

end Sys2Proof.Machine
end

