-- ==== Sys2Proof/Machine/Driver.lean ====
section
/-! DEFINITION. The driver's other operations (R209): reset, start, set_tracing, the loader, supplying input, the streams'
failures. None may begin while a call holds, except those on the streams (R100, R209) [log 20]. Read-back (R210) is
reading the fields of State. -/

namespace Sys2Proof.Machine

/-- An operation that needs the engine between calls. -/
def betweenCalls (op : State → Host.Outcome State Fault Refusal) (s : State) : Host.Outcome State Fault Refusal :=
  if s.hold.isSome then .refused .callInProgress else op s

/-- What `reset(preserve_memory)` leaves (R201): everything zero but the streams, and memory if preserved. -/
def State.afterReset (preserveMemory : Bool) (s : State) : State :=
  { State.reset with
    mem := if preserveMemory then s.mem else []
    input := s.input
    inputClosed := s.inputClosed
    output := s.output
    outFails := s.outFails
    outputClosed := s.outputClosed }

/-- `reset(preserve_memory)` (R201). -/
def resetOp (preserveMemory : Bool) : State → Host.Outcome State Fault Refusal :=
  betweenCalls (fun s => .next (s.afterReset preserveMemory))

/-- `start()` (R202): `is_running <- true` and nothing else. -/
def startOp : State → Host.Outcome State Fault Refusal := betweenCalls (fun s => .next { s with isRunning := true })

/-- `set_tracing(b)` (R212). -/
def setTracing (b : Bool) : State → Host.Outcome State Fault Refusal :=
  betweenCalls (fun s => .next { s with tracing := b })

/-! ## The loader (R61 to R63) -/

/-- The words written one after the other from `a` on, the address wrapping (R61); no event (R52). -/
def Memory.writeAll : Memory → Word → List Word → Memory
  | m, _, [] => m
  | m, a, w :: rest => Memory.writeAll (m.write a w) (a + 1) rest

/-- The sequence would pass address 65535 (R62). -/
def overflows (origin : Word) (words : List Word) : Bool := decide (Config.memWords < origin.toNat + words.length)

/-- `load_image(origin, words)` and `pc <- origin` (R61, R62): admitted only while `is_running` is false; a failed call
changes nothing. -/
def loadImage (origin : Word) (words : List Word) (allowWrap : Bool) : State → Host.Outcome State Fault Refusal :=
  betweenCalls (fun s =>
    if s.isRunning then .refused .loadWhileRunning
    else if overflows origin words && !allowWrap then .fault .addressOverflow
    else .next { s with mem := s.mem.writeAll origin words, pc := origin })

/-- An image as words: the origin first (R63). An image with no origin word is refused (D19). -/
def loadWords (words : List Word) (allowWrap : Bool) (s : State) : Host.Outcome State Fault Refusal :=
  match words with
  | origin :: rest => loadImage origin rest allowWrap s
  | [] => .refused .malformedImage

/-- The big-endian words of a byte image (R63); none where the number of bytes is odd. -/
def wordsOfBytes : List Byte → Option (List Word)
  | [] => some []
  | [_] => none
  | hi :: lo :: rest => (wordsOfBytes rest).map (wordOfBytes hi lo :: ·)

/-- An image as bytes (R63): an odd or empty one is refused and changes nothing (D19). -/
def loadBytes (bytes : List Byte) (allowWrap : Bool) (s : State) : Host.Outcome State Fault Refusal :=
  match wordsOfBytes bytes with
  | some words => loadWords words allowWrap s
  | none => .refused .malformedImage

/-- The bytes of a sequence of hexadecimal digits, the high digit of each byte first; none where their number is odd. -/
def bytesOfDigits : List (BitVec 4) → Option (List Byte)
  | [] => some []
  | [_] => none
  | hi :: lo :: rest => (bytesOfDigits rest).map ((hi ++ lo : Byte) :: ·)

/-- An image as hexadecimal digits (R63), which must agree with the byte form; how a digit is spelled is not in the
source (N18), so a digit is its value. -/
def loadHex (digits : List (BitVec 4)) (allowWrap : Bool) (s : State) : Host.Outcome State Fault Refusal :=
  match bytesOfDigits digits with
  | some bytes => loadBytes bytes allowWrap s
  | none => .refused .malformedImage

/-! ## The host's ends of the streams (R160 to R162, R209): at any time, also while a call holds -/

/-- The host supplies input: characters, or calls that will fail. -/
def State.supplyInput (items : List InItem) (s : State) : State := { s with input := s.input ++ items }

/-- The host closes or opens the input stream. -/
def State.setInputClosed (b : Bool) (s : State) : State := { s with inputClosed := b }

/-- The host settles which of the coming output calls fail. -/
def State.setOutput (fails : List Bool) (closed : Bool) (s : State) : State :=
  { s with outFails := fails, outputClosed := closed }

end Sys2Proof.Machine
end

