-- ==== Sys2Proof/Safety.lean ====
section
/-! DEFINITION. What counts as a sound state and as the end of a run, and the vocabulary of frames that claims use. -/

namespace Sys2Proof.Machine

/-! ## The invariant -/

/-- The instruction a held service belongs to. -/
def Held.instr : Held → Instr
  | .getc => .getc
  | .in_ => .in_
  | .puts => .puts

/-- What a call in progress says about the rest of the state: the engine runs, the falling edge has been delivered, the
latch holds the TRAP whose service holds, nothing is reported yet, and a PUTS that holds has no zero word to meet. -/
structure HoldInv (h : Hold) (s : State) : Prop where
  running : s.isRunning = true
  low : s.clk = false
  noReport : s.report = none
  latched : ∃ w, s.instr = some w ∧ decodeWord w = h.service.instr
  endless : h.service = .puts → ∀ a, s.mem.read a ≠ 0

/-- The invariant of every step: memory in canonical form (R33), the clock level and the latch agree with the execution
state (R39: no high level and no latched word before the first edge), a call in progress as `HoldInv` says. -/
structure EngineInv (s : State) : Prop where
  memory : s.mem.wf = true
  clockSeen : s.clk = true → s.edgeSeen = true
  latchSeen : s.instr ≠ none → s.edgeSeen = true
  hold : ∀ h, s.hold = some h → HoldInv h s

/-! ## Runs and their ends (R116) -/

/-- A driver call that delivers edges: `step()`, a held call going on, or a single `set_clock`. -/
def Call (s t : State) : Prop := step s = .next t ∨ ∃ b, setClock b s = .next t

/-- A run begins when `start` sets `is_running`. -/
def BeginsRun (s t : State) : Prop := startOp s = .next t ∧ s.isRunning = false

/-- The call from `s` ends the run: the cascade it delivers clears `is_running`. `t` is the run's final state, but for
the last rising edge of a `step()`. -/
def EndsRun (s t : State) : Prop := Call s t ∧ s.isRunning = true ∧ t.isRunning = false

/-- What can happen while a run goes on: a call that does not end it, `set_tracing`, `start` again, or the host's hold on
the streams. A reset cuts the run off; it is no end of it. -/
def GoesOn (s t : State) : Prop :=
  s.isRunning = true ∧ t.isRunning = true ∧
    (Call s t ∨ startOp s = .next t ∨ (∃ b, setTracing b s = .next t) ∨ (∃ items, t = s.supplyInput items) ∨
      (∃ b, t = s.setInputClosed b) ∨ ∃ fails closed, t = s.setOutput fails closed)

/-- The run that is going on in `s` ends after `n` moves, in `f`. A run in which `is_running` never becomes false ends
after no number of them. -/
def RunEndsAfter : Nat → State → State → Prop
  | 0, s, f => EndsRun s f
  | n + 1, s, f => ∃ u, GoesOn s u ∧ RunEndsAfter n u f

/-- The run ends normally: the call that ended it reported nothing. -/
def NormalEnd (s t : State) : Prop := EndsRun s t ∧ t.report = none

/-- The run ends by a fault: "a model must not count it as a normal end" (R116). -/
def FaultEnd (s t : State) : Prop := EndsRun s t ∧ t.report = some .illegalOpcode

/-- `n` steps, each returning `ok`: a claim about a program's result is about such a run (U3, U9: a reported error is no
normal step). -/
def CleanRun : Nat → State → State → Prop
  | 0, s, t => s = t
  | n + 1, s, t => ∃ u, step s = .next u ∧ u.hold = none ∧ u.report = none ∧ CleanRun n u t

/-! ## Frames -/

/-- Every general register keeps its value. -/
def KeepsRegs (s t : State) : Prop := ∀ r, t.reg r = s.reg r

/-- Every general register but `d` keeps its value. -/
def KeepsRegsBut (d : Reg) (s t : State) : Prop := ∀ r, r ≠ d → t.reg r = s.reg r

/-- Every address reads as before. -/
def KeepsMemory (s t : State) : Prop := ∀ a, t.mem.read a = s.mem.read a

/-- Every address but `ea` reads as before. -/
def KeepsMemoryBut (ea : Word) (s t : State) : Prop := ∀ a, a ≠ ea → t.mem.read a = s.mem.read a

/-- The input stream is as before. -/
def KeepsInput (s t : State) : Prop := t.input = s.input ∧ t.inputClosed = s.inputClosed

/-- The output stream and what its coming calls meet are as before. -/
def KeepsOutput (s t : State) : Prop :=
  t.output = s.output ∧ t.outFails = s.outFails ∧ t.outputClosed = s.outputClosed

/-- Both streams are as before. -/
def KeepsStreams (s t : State) : Prop := KeepsInput s t ∧ KeepsOutput s t

/-- The Signal record but `is_running`, and the execution state, are as before. -/
def KeepsClock (s t : State) : Prop :=
  t.clk = s.clk ∧ t.tracing = s.tracing ∧ t.instr = s.instr ∧ t.edgeSeen = s.edgeSeen

/-- No call is newly held and nothing is newly reported. -/
def KeepsCall (s t : State) : Prop := t.hold = s.hold ∧ t.report = s.report

/-- The trace gains exactly `evs` when `tracing` is true, and nothing when it is false (R111). -/
def Traced (evs : List Event) (s t : State) : Prop := t.trace = s.trace ++ (if s.tracing then evs else [])

/-- The whole effect of `x[dr] <- v; SetCC(v)` (R25, R110) and its frame. -/
structure WritesResult (dr : Reg) (v : Word) (s t : State) : Prop where
  result : t.reg dr = v
  flags : t.flags = some (signCategory v)
  regs : KeepsRegsBut dr s t
  pc : t.pc = s.pc
  memory : KeepsMemory s t
  streams : KeepsStreams s t
  clock : KeepsClock s t
  running : t.isRunning = s.isRunning
  call : KeepsCall s t
  trace : Traced [.registerWrite (.gpr dr) v, .conditionUpdate (signCategory v)] s t

/-- The whole effect of storing `v` at `ea` (R52) and its frame. -/
structure StoresWord (ea v : Word) (s t : State) : Prop where
  stored : t.mem.read ea = v
  memory : KeepsMemoryBut ea s t
  regs : KeepsRegs s t
  flags : t.flags = s.flags
  pc : t.pc = s.pc
  streams : KeepsStreams s t
  clock : KeepsClock s t
  running : t.isRunning = s.isRunning
  call : KeepsCall s t
  trace : Traced [.memoryWrite ea v] s t

/-- The whole effect of a transfer of control to `target`, with or without a link in R7 (R23), and its frame. -/
structure TransfersTo (target : Word) (evs : List Event) (s t : State) : Prop where
  pc : t.pc = target
  flags : t.flags = s.flags
  memory : KeepsMemory s t
  streams : KeepsStreams s t
  clock : KeepsClock s t
  running : t.isRunning = s.isRunning
  call : KeepsCall s t
  trace : Traced evs s t

/-- The frame of a held call that has ended (R114): no register but R0 and no flag, PC, memory word or `is_running` has
changed, the service's events are on the trace, and the last rising edge of a `step()` has been delivered. -/
structure EndsHeldCall (h : Hold) (evs : List Event) (s t : State) : Prop where
  ended : t.hold = none
  regs : KeepsRegsBut 0 s t
  flags : t.flags = s.flags
  pc : t.pc = s.pc
  memory : KeepsMemory s t
  latch : t.instr = s.instr
  running : t.isRunning = s.isRunning
  clk : t.clk = (s.clk || h.byStep)
  edgeSeen : t.edgeSeen = (s.edgeSeen || (h.byStep && !s.clk))
  tracing : t.tracing = s.tracing
  trace : Traced (evs ++ if h.byStep && !s.clk then [.edgeRising] else []) s t

/-- What no TRAP service and no faulting opcode changes (R150, R157): flags, PC, memory, clock, every register but R0. -/
structure KeepsMachine (s t : State) : Prop where
  regs : KeepsRegsBut 0 s t
  flags : t.flags = s.flags
  pc : t.pc = s.pc
  memory : KeepsMemory s t
  clock : KeepsClock s t

/-- The next `n` calls on the output stream succeed. -/
def State.outputAccepts (n : Nat) (s : State) : Prop :=
  (∀ b ∈ s.outFails.take n, b = false) ∧ (s.outputClosed = true → n ≤ s.outFails.length)

/-- The next `n` calls on the output stream succeed and the one after them fails. -/
def State.outputFailsAfter (n : Nat) (s : State) : Prop :=
  s.outputAccepts n ∧ ((s.outFails.drop n).head? = some true ∨ (s.outFails.drop n = [] ∧ s.outputClosed = true))

/-- The next call on the output stream fails. -/
def State.outputFailing (s : State) : Prop := s.outputFailsAfter 0

/-- The next call on the input stream fails. -/
def State.inputFailing (s : State) : Prop := s.input.head? = some .fail ∨ (s.input = [] ∧ s.inputClosed = true)

/-- The low bytes of the `n` words from address `a` on, wrapping (R153). -/
def lowBytesFrom (m : Memory) (a : Word) (n : Nat) : List Byte :=
  (List.range n).map (fun k => lowByte (m.read (a + BitVec.ofNat 16 k)))

/-- The `n` words from `a` on are not zero and the one after them is (R153). -/
def stringAt (m : Memory) (a : Word) (n : Nat) : Prop :=
  (∀ k, k < n → m.read (a + BitVec.ofNat 16 k) ≠ 0) ∧ m.read (a + BitVec.ofNat 16 n) = 0

/-- Two states that differ at most in the trace log and whether it is kept (R111). -/
def SameButTrace (s t : State) : Prop := { s with trace := t.trace, tracing := t.tracing } = t

end Sys2Proof.Machine
end

