-- ==== Sys2Proof/Certificates/Slice0/Obligations.lean ====
section
/-! DEFINITION. The statements about the model. "log n" is notes/assumptions/n.md; D, C, U, S, G are the spec's decisions,
conflicts, unspecified behaviours, source examples and general-knowledge entries. -/

open Sys2Proof Sys2Proof.Machine Host

/-! ## Reset and the invariant -/

/-- R38: every value after construction and after `reset(preserve_memory)`; the reset leaves the streams, and with
`preserve_memory` the memory, as they were. -/
def Obligations.ResetValues : Prop :=
  (∀ r, State.reset.reg r = 0) ∧ State.reset.pc = 0 ∧ State.reset.flagN = false ∧ State.reset.flagZ = false ∧
  State.reset.flagP = false ∧ State.reset.clk = false ∧ State.reset.isRunning = false ∧ State.reset.tracing = false ∧
  State.reset.instr = none ∧ (∀ a, State.reset.mem.read a = 0) ∧ State.reset.trace = [] ∧ State.reset.esm = .Idle ∧
  ∀ (preserve : Bool) (s : State), s.hold = none →
    ∃ t, resetOp preserve s = .next t ∧ (∀ r, t.reg r = 0) ∧ t.pc = 0 ∧ t.flagN = false ∧ t.flagZ = false ∧
      t.flagP = false ∧ t.clk = false ∧ t.isRunning = false ∧ t.tracing = false ∧ t.instr = none ∧
      (∀ a, t.mem.read a = if preserve then s.mem.read a else 0) ∧ t.trace = [] ∧ t.esm = .Idle ∧ KeepsStreams s t

/-- The invariant holds after reset. -/
def Obligations.ResetMeetsInvariant : Prop := EngineInv State.reset

/-- The invariant is kept by every step from every state: memory stays canonical, the clock and the latch agree with the
execution state, and a held call is a running TRAP service whose falling edge has been delivered. -/
def Obligations.StepKeepsInvariant : Prop := ∀ s t, EngineInv s → step s = .next t → EngineInv t

/-- The invariant is kept by the driver's other operations too: a single edge, reset, start, set_tracing, the loader, and
the host's hold on the streams. -/
def Obligations.DriverKeepsInvariant : Prop :=
  ∀ s t, EngineInv s →
    (∀ b, setClock b s = .next t → EngineInv t) ∧ (∀ p, resetOp p s = .next t → EngineInv t) ∧ (startOp s = .next t → EngineInv t) ∧
    (∀ b, setTracing b s = .next t → EngineInv t) ∧ (∀ o ws w, loadImage o ws w s = .next t → EngineInv t) ∧
    (∀ items, EngineInv (s.supplyInput items)) ∧ (∀ b, EngineInv (s.setInputClosed b)) ∧
    ∀ fails closed, EngineInv (s.setOutput fails closed)

/-! ## Decoding -/

/-- Words written out from the formats of R82 decode to what they stand for, one or more per family. The field
positions are the spec's decision D1 (log 10). -/
def Obligations.SampleWordsDecode : Prop :=
  decodeWord 0b0001_010_000_0_00_001 = .addReg 2 0 1 ∧ decodeWord 0b0001_001_001_1_11111 = .addImm 1 1 0b11111 ∧
  decodeWord 0b0101_011_001_0_00_010 = .andReg 3 1 2 ∧ decodeWord 0b1001_001_000_111111 = .notReg 1 0 ∧
  decodeWord 0b0010_010_000000101 = .ld 2 5 ∧ decodeWord 0b0111_001_110_000010 = .str 1 6 2 ∧
  decodeWord 0b0000_0_1_0_111111101 = .br false true false 0b111111101 ∧ decodeWord 0b0100_1_00000000100 = .jsr 4 ∧
  decodeWord 0b1100_000_111_000000 = .ret ∧ decodeWord 0b1111_0000_00100101 = .halt ∧
  decodeWord 0b1101_000000000000 = .reserved1101

/-- Decoding the word of a well-formed instruction gives the instruction back, with every operand at every value. -/
def Obligations.DecodeEncodeAgree : Prop := ∀ i : Instr, i.wf = true → decodeWord (encode i) = i

/-- Every word decodes to a well-formed instruction, whose own word decodes to it again and differs from the first only
in bits the instruction does not use. The ignored bits are the spec's decision D4 (log 13). -/
def Obligations.EncodeDecodeAgree : Prop :=
  ∀ w : Word, (decodeWord w).wf = true ∧ decodeWord (encode (decodeWord w)) = decodeWord w ∧
    encode (decodeWord w) &&& ~~~(decodeWord w).rowClass.ignoredBits = w &&& ~~~(decodeWord w).rowClass.ignoredBits

/-- R96: every word matches exactly one of the nineteen main rows of the opcode table, the row of the instruction the
decoder gives. -/
def Obligations.EveryWordMatchesOneMainRow : Prop :=
  mainRows.length = 19 ∧
    ∀ w : Word, (mainRows.filter (fun r => r.admits w)).map TableRow.cls = [(decodeWord w).rowClass]

/-- The bits an instruction does not use change nothing (the spec's decision D4, D29; log 13): words that agree
elsewhere decode alike. -/
def Obligations.IgnoredBitsDoNotMatter : Prop :=
  ∀ w v : Word, w &&& ~~~(decodeWord w).rowClass.ignoredBits = v &&& ~~~(decodeWord w).rowClass.ignoredBits →
    decodeWord v = decodeWord w

/-- Sign extension of the four immediate widths (R7): the 16-bit value, read as signed, is the field read as signed;
extending again at the same width changes nothing. -/
def Obligations.SignExtensionKeepsValue : Prop :=
  (∀ f : BitVec 5, (sext f).toInt = f.toInt ∧ reextend 5 (sext f) = sext f) ∧
  (∀ f : BitVec 6, (sext f).toInt = f.toInt ∧ reextend 6 (sext f) = sext f) ∧
  (∀ f : BitVec 9, (sext f).toInt = f.toInt ∧ reextend 9 (sext f) = sext f) ∧
  (∀ f : BitVec 11, (sext f).toInt = f.toInt ∧ reextend 11 (sext f) = sext f)

/-! ## The clock and the cascade -/

/-- When `is_running` is true and no call is held, a step delivers a rising edge if `clk` was low, fetches the word at
the PC into the latch, increments the PC, records the decode, runs `exec` of the decoded instruction, and delivers the
last rising edge unless the service holds. -/
def Obligations.StepRunsDecodedInstruction : Prop :=
  ∀ s : State, s.hold = none → s.isRunning = true →
    ∃ u t, exec (decodeWord (s.mem.read s.pc)) u = .next t ∧ step s = .next t.endStep ∧
      u.pc = s.pc + 1 ∧ u.instr = some (s.mem.read s.pc) ∧ u.clk = false ∧ u.edgeSeen = true ∧
      u.isRunning = true ∧ u.tracing = s.tracing ∧ u.hold = none ∧ u.report = none ∧ u.regs = s.regs ∧
      u.flags = s.flags ∧ u.mem = s.mem ∧ KeepsStreams s u ∧
      Traced ((if s.clk then [] else [.edgeRising]) ++
        [.edgeFalling, .fetch (s.mem.read s.pc),
         .decode (s.mem.read s.pc) (decodeWord (s.mem.read s.pc)).rowClass]) s u

/-- A rising edge raises `clk` and appends `edge-rising`; nothing else changes, running or not (R101), but that it clears
`report` (the model's choice, log 7) and sets `edgeSeen` (the spec's decision D20, log 19). -/
def Obligations.RisingEdgeOnlyMarks : Prop :=
  ∀ s : State, s.hold = none → s.clk = false →
    ∃ t, setClock true s = .next t ∧ Traced [.edgeRising] s t ∧
      t = { s with clk := true, edgeSeen := true, report := none, trace := t.trace }

/-- While `is_running` is false, before the first start as after a halt, a falling edge lowers `clk` and appends
`edge-falling`, with no fetch, and a rising edge raises `clk` and appends `edge-rising` (R107, R101); either clears `report`
(the model's choice, log 7) and sets `edgeSeen` (the spec's D20, log 19), and changes nothing else. Any number of steps (the
spec's D6, log 8) leaves registers, PC, flags, memory, latch and streams as they were and `is_running` false. -/
def Obligations.HaltedEdgesOnlyRecord : Prop :=
  (∀ s : State, s.hold = none → s.isRunning = false → s.clk = true →
    ∃ t, setClock false s = .next t ∧ Traced [.edgeFalling] s t ∧
      t = { s with clk := false, edgeSeen := true, report := none, trace := t.trace }) ∧
  (∀ s : State, s.hold = none → s.isRunning = false → s.clk = false →
    ∃ t, setClock true s = .next t ∧ Traced [.edgeRising] s t ∧
      t = { s with clk := true, edgeSeen := true, report := none, trace := t.trace }) ∧
  ∀ (n : Nat) (s : State), s.hold = none → s.isRunning = false →
    ∃ t, Sys2Proof.core.run n s = .next t ∧ t.regs = s.regs ∧ t.pc = s.pc ∧ t.flags = s.flags ∧ t.mem = s.mem ∧
      t.instr = s.instr ∧ t.isRunning = false ∧ t.hold = none ∧ KeepsStreams s t

/-- The spec's decisions D6 and D7: `step()` is `set_clock(true); set_clock(false); set_clock(true)`, and a repeated
level is no edge. A falling edge whose service holds leaves the step's last edge owed (log 5). -/
def Obligations.StepIsThreeSetClocks : Prop :=
  (∀ (s : State) (b : Bool), s.hold = none → s.clk = b → setClock b s = .next { s with report := none }) ∧
  ∀ s : State, s.hold = none →
    ∃ u v, setClock true s = .next u ∧ setClock false u = .next v ∧
      (v.hold = none → ∃ t, setClock true v = .next t ∧ step s = .next { t with report := v.report }) ∧
      (∀ h, v.hold = some h → step s = .next { v with hold := some { h with byStep := true } })

/-- No step stops: from every state, reachable or not, the machine has a next state, and every instruction has one in
every state. This is the model's choice where the spec's call does not return: a GETC or IN that waits (log 5; U10) and a
PUTS that meets no zero word (log 6; U11) are next states marked held; and an error is a next state with `report` set (log
7), for the spec vectors none (R170, R179). -/
def Obligations.EveryStepHasNextState : Prop :=
  (∀ s : State, ∃ t, step s = .next t) ∧ ∀ (i : Instr) (s : State), ∃ t, exec i s = .next t

/-- R31: whatever the instruction does, also when it stores to its own address, after the step the latch holds the word
that was fetched, and that word is the one that ran. -/
def Obligations.LatchKeepsFetchedWord : Prop :=
  ∀ s t : State, s.hold = none → s.isRunning = true → step s = .next t → t.instr = some (s.mem.read s.pc)

/-- Self-modifying code (R67): a word that ST puts at the next address is the word the very next step fetches, and the
storing instruction itself has run as the ST that was fetched. -/
def Obligations.StoredWordRunsNext : Prop :=
  ∀ (s : State) (sr : Reg), s.hold = none → s.isRunning = true → s.mem.read s.pc = encode (.st sr 0) →
    ∃ t, step s = .next t ∧ t.pc = s.pc + 1 ∧ t.mem.read t.pc = s.reg sr ∧ t.instr = some (encode (.st sr 0)) ∧
      t.hold = none ∧ t.isRunning = true ∧
      ∀ u, step t = .next u → u.instr = some (s.reg sr)

/-- Placing a word with `withFetchWord` makes the next step fetch and run that word. -/
def Obligations.PlacedWordRuns : Prop :=
  ∀ (s : State) (w : Word),
    decodeTableWord 16 w.toNat = some (decodeWord w) ∧
    ∃ u t, exec (decodeWord w) u = .next t ∧ step (s.withFetchWord 16 w.toNat) = .next t.endStep ∧
      u.instr = some w ∧ u.pc = s.pc + 1 ∧ u.regs = s.regs ∧ u.flags = s.flags

/-! ## Flags -/

/-- `sign_category` (S1; R26): N exactly when bit 15 is set, Z exactly when the value is zero, P otherwise, so exactly
one flag is true after every `SetCC`, and it is the signed value's sign. -/
def Obligations.SignCategoryIsTheSign : Prop :=
  ∀ (v : Word) (s : State),
    ((s.setCC v).flagN = true ↔ v.toInt < 0) ∧ ((s.setCC v).flagZ = true ↔ v.toInt = 0) ∧
    ((s.setCC v).flagP = true ↔ 0 < v.toInt) ∧ ((s.setCC v).flagN = true ↔ v.getLsbD 15 = true) ∧
    ((s.setCC v).flagZ = true ↔ v = 0)

/-- R25: the flags are written by ADD, AND, NOT, LD, LDI, LDR and LEA and by nothing else; no step makes them unset
again (R24). -/
def Obligations.FlagsChangeOnlyByWriters : Prop :=
  (∀ (i : Instr) (s t : State), exec i s = .next t → t.flags ≠ s.flags →
    i.rowClass = .ADD_REG ∨ i.rowClass = .ADD_IMM ∨ i.rowClass = .AND_REG ∨ i.rowClass = .AND_IMM ∨ i.rowClass = .NOT ∨
    i.rowClass = .LD ∨ i.rowClass = .LDI ∨ i.rowClass = .LDR ∨ i.rowClass = .LEA) ∧
  ∀ s t : State, step s = .next t → s.flags ≠ none → t.flags ≠ none

/-! ## Operate instructions -/

/-- ADD and AND, register and immediate forms, and NOT: the result in DR modulo 65536, the flags from it, DR written
before the flags, nothing else changed; a source that is also the destination is read before the write. -/
def Obligations.OperateInstructionsWriteResult : Prop :=
  ∀ (dr sr1 sr2 : Reg) (imm5 : BitVec 5) (s : State),
    (∃ t, exec (.addReg dr sr1 sr2) s = .next t ∧ WritesResult dr (s.reg sr1 + s.reg sr2) s t) ∧
    (∃ t, exec (.addImm dr sr1 imm5) s = .next t ∧ WritesResult dr (s.reg sr1 + imm5.signExtend 16) s t) ∧
    (∃ t, exec (.andReg dr sr1 sr2) s = .next t ∧ WritesResult dr (s.reg sr1 &&& s.reg sr2) s t) ∧
    (∃ t, exec (.andImm dr sr1 imm5) s = .next t ∧ WritesResult dr (s.reg sr1 &&& imm5.signExtend 16) s t) ∧
    (∃ t, exec (.notReg dr sr1) s = .next t ∧ WritesResult dr (0xFFFF - s.reg sr1) s t)

/-! ## Data movement -/

/-- LD, LDI, LDR and LEA: the word at the effective address (LEA: the address itself) in DR, the flags from it, nothing
else changed. `s.pc` is the incremented PC. -/
def Obligations.LoadsWriteResult : Prop :=
  ∀ (dr baseR : Reg) (off9 : BitVec 9) (off6 : BitVec 6) (s : State),
    (∃ t, exec (.ld dr off9) s = .next t ∧ WritesResult dr (s.mem.read (s.pc + off9.signExtend 16)) s t) ∧
    (∃ t, exec (.ldi dr off9) s = .next t ∧
      WritesResult dr (s.mem.read (s.mem.read (s.pc + off9.signExtend 16))) s t) ∧
    (∃ t, exec (.ldr dr baseR off6) s = .next t ∧
      WritesResult dr (s.mem.read (s.reg baseR + off6.signExtend 16)) s t) ∧
    (∃ t, exec (.lea dr off9) s = .next t ∧ WritesResult dr (s.pc + off9.signExtend 16) s t)

/-- ST, STI and STR: the whole word of SR at the effective address; every other address, every register, the flags and
the PC unchanged. The address is the one the meaning computes (`eaPc9`, `eaIndirect`, `eaBase6`), and it is the spec's
sum. -/
def Obligations.StoresWriteOneWord : Prop :=
  ∀ (sr baseR : Reg) (off9 : BitVec 9) (off6 : BitVec 6) (s : State),
    (∃ t, exec (.st sr off9) s = .next t ∧ StoresWord (eaPc9 off9 s) (s.reg sr) s t) ∧
    (∃ t, exec (.sti sr off9) s = .next t ∧ StoresWord (eaIndirect off9 s) (s.reg sr) s t) ∧
    (∃ t, exec (.str sr baseR off6) s = .next t ∧ StoresWord (eaBase6 baseR off6 s) (s.reg sr) s t) ∧
    eaPc9 off9 s = s.pc + off9.signExtend 16 ∧ eaIndirect off9 s = s.mem.read (s.pc + off9.signExtend 16) ∧
    eaBase6 baseR off6 s = s.reg baseR + off6.signExtend 16

/-- Memory (R51, R52): a read gives the word last written there, a write leaves every other address alone, and the
canonical form is kept. -/
def Obligations.ReadGivesLastWrite : Prop :=
  ∀ (m : Memory) (a b v : Word), (m.write a v).read a = v ∧ (b ≠ a → (m.write a v).read b = m.read b) ∧
    (m.wf = true → (m.write a v).wf = true)

/-- Two canonical memories that read alike at every address are the same data (log 1). -/
def Obligations.CanonicalMemoriesAreEqual : Prop :=
  ∀ m n : Memory, m.wf = true → n.wf = true → (∀ a, m.read a = n.read a) → m = n

/-- R53: memory that nothing has written reads zero after construction and after a reset that does not preserve it, a
write elsewhere leaves it so, and a zero word runs as a branch never taken: the PC advances by one, wrapping, and no register, flag, memory word or stream
changes. -/
def Obligations.UnwrittenMemoryRunsAsNops : Prop :=
  (∀ a, State.reset.mem.read a = 0) ∧
  (∀ s t : State, resetOp false s = .next t → ∀ a, t.mem.read a = 0) ∧
  (∀ (m : Memory) (a b v : Word), m.read a = 0 → a ≠ b → (m.write b v).read a = 0) ∧
  ∀ s : State, s.hold = none → s.isRunning = true → s.mem.read s.pc = 0 →
    ∃ t, step s = .next t ∧ t.pc = s.pc + 1 ∧ KeepsRegs s t ∧ t.flags = s.flags ∧ KeepsMemory s t ∧
      KeepsStreams s t ∧ t.isRunning = true ∧ t.hold = none ∧ t.report = none

/-- R54: an instruction changes memory only if it is ST, STI or STR; a step or a clock edge only by running one of them;
and none of the driver's operations but the loader and a reset that does not preserve memory changes it. -/
def Obligations.OnlyStoresAndLoaderWriteMemory : Prop :=
  (∀ (i : Instr) (s t : State), exec i s = .next t → t.mem ≠ s.mem →
    i.rowClass = .ST ∨ i.rowClass = .STI ∨ i.rowClass = .STR) ∧
  (∀ s t : State, step s = .next t ∨ (∃ b, setClock b s = .next t) → t.mem ≠ s.mem →
    s.isRunning = true ∧ ((decodeWord (s.mem.read s.pc)).rowClass = .ST ∨
      (decodeWord (s.mem.read s.pc)).rowClass = .STI ∨ (decodeWord (s.mem.read s.pc)).rowClass = .STR)) ∧
  ∀ s t : State,
    (∀ b, setTracing b s = .next t → t.mem = s.mem) ∧ (startOp s = .next t → t.mem = s.mem) ∧
    (resetOp true s = .next t → t.mem = s.mem) ∧ (∀ items, (s.supplyInput items).mem = s.mem) ∧
    (∀ b, (s.setInputClosed b).mem = s.mem) ∧ ∀ fails closed, (s.setOutput fails closed).mem = s.mem

/-! ## Control -/

/-- BR and NOP: taken exactly when a flag that is true has its bit set, then to the incremented PC plus the offset with
one PC event, else nothing changes; registers, flags and memory are untouched either way. The reading of "match" is the
spec's decision D2, the event on every taken branch D31. -/
def Obligations.BranchTakenOnMatchingFlag : Prop :=
  ∀ (n z p : Bool) (off9 : BitVec 9) (s : State),
    ((n = true ∧ s.flags = some .N) ∨ (z = true ∧ s.flags = some .Z) ∨ (p = true ∧ s.flags = some .P) →
      ∃ t, exec (.br n z p off9) s = .next t ∧ KeepsRegs s t ∧
        TransfersTo (s.pc + off9.signExtend 16) [.registerWrite .pc (s.pc + off9.signExtend 16)] s t) ∧
    (¬((n = true ∧ s.flags = some .N) ∨ (z = true ∧ s.flags = some .Z) ∨ (p = true ∧ s.flags = some .P)) →
      exec (.br n z p off9) s = .next s) ∧
    exec (.nop off9) s = .next s

/-- With no flag true, as after reset, no branch is taken, whatever its condition bits (the spec's decisions D22 and D2;
log 14). -/
def Obligations.NoFlagNoBranch : Prop :=
  (∀ (n z p : Bool) (off9 : BitVec 9) (s : State), s.flags = none → exec (.br n z p off9) s = .next s) ∧
  State.reset.flags = none

/-- JMP and RET: the PC becomes the register's value, any 16-bit value; RET is JMP R7. -/
def Obligations.JumpGoesToRegister : Prop :=
  ∀ (baseR : Reg) (s : State),
    (∃ t, exec (.jmp baseR) s = .next t ∧ KeepsRegs s t ∧
      TransfersTo (s.reg baseR) [.registerWrite .pc (s.reg baseR)] s t) ∧
    (∃ t, exec .ret s = .next t ∧ KeepsRegs s t ∧ TransfersTo (s.reg 7) [.registerWrite .pc (s.reg 7)] s t) ∧
    exec (.jmp 7) s = exec .ret s

/-- JSR and JSRR: R7 gets the incremented PC, then the PC the target. JSRR reads its base after the link write (the
spec's decision D18, log 11), so for R7 the target is the incremented PC. -/
def Obligations.CallsLinkThenJump : Prop :=
  ∀ (baseR : Reg) (off11 : BitVec 11) (s : State),
    (∃ t, exec (.jsr off11) s = .next t ∧ t.reg 7 = s.pc ∧ KeepsRegsBut 7 s t ∧
      TransfersTo (s.pc + off11.signExtend 16)
        [.registerWrite (.gpr 7) s.pc, .registerWrite .pc (s.pc + off11.signExtend 16)] s t) ∧
    (∃ t, exec (.jsrr baseR) s = .next t ∧ t.reg 7 = s.pc ∧ KeepsRegsBut 7 s t ∧
      TransfersTo (if baseR = 7 then s.pc else s.reg baseR)
        [.registerWrite (.gpr 7) s.pc, .registerWrite .pc (if baseR = 7 then s.pc else s.reg baseR)] s t)

/-- R7 changes only by JSR, JSRR and the instructions whose destination register is R7; no TRAP links (the spec's
decision D12, log 18). -/
def Obligations.LinkRegisterChangesOnlyByCalls : Prop :=
  ∀ (i : Instr) (s t : State), exec i s = .next t → t.reg 7 ≠ s.reg 7 →
    i.rowClass = .JSR ∨ i.rowClass = .JSRR ∨
    (∃ a b, i = .addReg 7 a b) ∨ (∃ a b, i = .addImm 7 a b) ∨ (∃ a b, i = .andReg 7 a b) ∨ (∃ a b, i = .andImm 7 a b) ∨
    (∃ a, i = .notReg 7 a) ∨ (∃ o, i = .ld 7 o) ∨ (∃ o, i = .ldi 7 o) ∨ (∃ b o, i = .ldr 7 b o) ∨ (∃ o, i = .lea 7 o)

/-- R23: in the execute step only BR, JMP (and RET), JSR and JSRR write the PC; every other instruction leaves it at the
incremented value. -/
def Obligations.OnlyControlInstructionsWritePc : Prop :=
  ∀ (i : Instr) (s t : State), exec i s = .next t → t.pc ≠ s.pc →
    i.rowClass = .BR ∨ i.rowClass = .JMP ∨ i.rowClass = .JSR ∨ i.rowClass = .JSRR

/-! ## TRAP and its services -/

/-- The dispatch on the low byte: every word `1111 ----` with low byte 0x20, 0x21, 0x22, 0x23 or 0x25 decodes to GETC, OUT,
PUTS, IN or HALT, whatever its bits 11 to 8 (the spec's decisions D4 and D29, log 13), and TRAP with that vector is that
service, in every state. -/
def Obligations.TrapDispatchesOnVector : Prop :=
  (∀ w : Word, bits w 12 4 = 0b1111 →
    (bits w 0 8 = 0x20 → decodeWord w = .getc) ∧ (bits w 0 8 = 0x21 → decodeWord w = .out) ∧
    (bits w 0 8 = 0x22 → decodeWord w = .puts) ∧ (bits w 0 8 = 0x23 → decodeWord w = .in_) ∧
    (bits w 0 8 = 0x25 → decodeWord w = .halt)) ∧
  ∀ s : State, exec (.trap 0x20) s = exec .getc s ∧ exec (.trap 0x21) s = exec .out s ∧
    exec (.trap 0x22) s = exec .puts s ∧ exec (.trap 0x23) s = exec .in_ s ∧ exec (.trap 0x25) s = exec .halt s

/-- GETC with a character at the head of the input: R0 is the character with a zero high byte, the head is consumed, no
echo, flags and the rest unchanged. The 8-bit width is the spec's decision D13 (log 16). -/
def Obligations.GetcReadsOneCharacter : Prop :=
  ∀ (s : State) (c : Byte) (rest : List InItem), s.input = .char c :: rest →
    ∃ t, exec .getc s = .next t ∧ t.reg 0 = c.setWidth 16 ∧ KeepsMachine s t ∧ t.input = rest ∧
      t.inputClosed = s.inputClosed ∧ KeepsOutput s t ∧ t.isRunning = s.isRunning ∧ KeepsCall s t ∧
      Traced [.registerWrite (.gpr 0) (c.setWidth 16)] s t

/-- R152: every word `1111 ---- 0010 0001` is OUT. OUT appends the low byte of R0 to the output; registers, R0 included,
flags, memory, input and trace are unchanged. Where the output stream fails, the call reports `IoError` and nothing is
written. -/
def Obligations.OutWritesLowByte : Prop :=
  (∀ w : Word, bits w 12 4 = 0b1111 → bits w 0 8 = 0x21 → decodeWord w = .out) ∧
  ∀ s : State,
    (s.outputAccepts 1 →
      ∃ t, exec .out s = .next t ∧ t.output = s.output ++ [(s.reg 0).extractLsb' 0 8] ∧ KeepsMachine s t ∧
        t.reg 0 = s.reg 0 ∧ KeepsInput s t ∧ t.isRunning = s.isRunning ∧ KeepsCall s t ∧ t.trace = s.trace) ∧
    (s.outputFailing →
      ∃ t, exec .out s = .next t ∧ t.output = s.output ∧ KeepsMachine s t ∧ t.reg 0 = s.reg 0 ∧ KeepsInput s t ∧
        t.isRunning = s.isRunning ∧ t.hold = s.hold ∧ t.report = some .ioError ∧ t.trace = s.trace)

/-- PUTS of a string of `n` words ended by a zero word, the address wrapping: the low bytes in order, the zero word not
written, R0 and everything else unchanged. Which byte is written and the wrap are the spec's decision D14 (log 17). -/
def Obligations.PutsWritesString : Prop :=
  ∀ (s : State) (n : Nat), n < 65536 → stringAt s.mem (s.reg 0) n → s.outputAccepts n →
    ∃ t, exec .puts s = .next t ∧ t.output = s.output ++ lowBytesFrom s.mem (s.reg 0) n ∧
      t.outFails = s.outFails.drop n ∧ t.outputClosed = s.outputClosed ∧ KeepsMachine s t ∧ t.reg 0 = s.reg 0 ∧
      KeepsInput s t ∧ t.isRunning = s.isRunning ∧ KeepsCall s t ∧ t.trace = s.trace

/-- PUTS whose output stream fails at a character of the string: the characters before it stay written, the call reports
`IoError`, and `is_running`, the trace and everything else are unchanged. -/
def Obligations.PutsFailureKeepsWritten : Prop :=
  ∀ (s : State) (k : Nat), k < 65536 → (∀ j, j ≤ k → s.mem.read (s.reg 0 + BitVec.ofNat 16 j) ≠ 0) →
    s.outputFailsAfter k →
    ∃ t, exec .puts s = .next t ∧ t.output = s.output ++ lowBytesFrom s.mem (s.reg 0) k ∧ KeepsMachine s t ∧
      t.reg 0 = s.reg 0 ∧ KeepsInput s t ∧ t.isRunning = s.isRunning ∧ t.hold = s.hold ∧ t.report = some .ioError ∧
      t.trace = s.trace

/-- PUTS over a memory with no zero word never completes (U11): the call holds, and while the output stream accepts the
characters a step of the held call leaves it held; it is never a final state. The lap of 65536 characters is the
model's own (log 6). -/
def Obligations.PutsWithoutZeroWordHolds : Prop :=
  ∀ s : State, (∀ a, s.mem.read a ≠ 0) → s.outputAccepts 65536 →
    (∃ t, exec .puts s = .next t ∧ t.hold = some ⟨.puts, false⟩ ∧ KeepsMachine s t ∧ t.reg 0 = s.reg 0 ∧
      t.output = s.output ++ lowBytesFrom s.mem (s.reg 0) 65536 ∧ t.isRunning = s.isRunning ∧ t.report = s.report) ∧
    ∀ b, s.hold = some ⟨.puts, b⟩ →
      ∃ t, step s = .next t ∧ t.hold = some ⟨.puts, b⟩ ∧ KeepsMachine s t ∧ t.isRunning = s.isRunning

/-- IN with a character at the head of the input and an output stream that accepts: prompt, then echo on the output, R0
the character, flags and the rest unchanged. It holds for every prompt (`IN_PROMPT` is open, D15, log 2). -/
def Obligations.InPromptsEchoesStores : Prop :=
  ∀ (s : State) (c : Byte) (rest : List InItem), s.input = .char c :: rest →
    s.outputAccepts (Config.inPrompt.length + 1) →
    ∃ t, exec .in_ s = .next t ∧ t.output = s.output ++ Config.inPrompt ++ [c] ∧ t.reg 0 = c.setWidth 16 ∧
      KeepsMachine s t ∧ t.input = rest ∧ t.inputClosed = s.inputClosed ∧ t.isRunning = s.isRunning ∧ KeepsCall s t ∧
      Traced [.registerWrite (.gpr 0) (c.setWidth 16)] s t

/-- A failing input stream (R162): GETC and IN report `IoError`, R0 is not written, and what IN wrote as its prompt stays
written; `is_running` is unchanged (the spec's decision D16). -/
def Obligations.InputFailureKeepsR0 : Prop :=
  ∀ s : State, s.inputFailing →
    (∃ t, exec .getc s = .next t ∧ KeepsRegs s t ∧ KeepsMachine s t ∧ KeepsOutput s t ∧ t.trace = s.trace ∧
      t.isRunning = s.isRunning ∧ t.hold = s.hold ∧ t.report = some .ioError) ∧
    (s.outputAccepts Config.inPrompt.length →
      ∃ t, exec .in_ s = .next t ∧ KeepsRegs s t ∧ KeepsMachine s t ∧ t.output = s.output ++ Config.inPrompt ∧
        t.trace = s.trace ∧ t.isRunning = s.isRunning ∧ t.hold = s.hold ∧ t.report = some .ioError)

/-- IN whose output stream fails, for every prompt: at character `k` of the prompt the characters before it stay and
nothing is read; at the echo the prompt stays, the character is consumed, and R0 is not written. IN is that service with
the prompt `IN_PROMPT` (D15, log 2). -/
def Obligations.InOutputFailureKeepsR0 : Prop :=
  (∀ s : State, exec .in_ s = .next (s.inWith Config.inPrompt)) ∧
  (∀ (prompt : List Byte) (s t : State) (k : Nat), k < prompt.length → s.outputFailsAfter k → t = s.inWith prompt →
    KeepsRegs s t ∧ KeepsMachine s t ∧ KeepsInput s t ∧ t.output = s.output ++ prompt.take k ∧ t.trace = s.trace ∧
      t.isRunning = s.isRunning ∧ t.hold = s.hold ∧ t.report = some .ioError) ∧
  ∀ (prompt : List Byte) (s t : State) (c : Byte) (rest : List InItem), s.input = .char c :: rest →
    s.outputFailsAfter prompt.length → t = s.inWith prompt →
    KeepsRegs s t ∧ KeepsMachine s t ∧ t.input = rest ∧ t.output = s.output ++ prompt ∧ t.trace = s.trace ∧
      t.isRunning = s.isRunning ∧ t.hold = s.hold ∧ t.report = some .ioError

/-- GETC and IN with no character yet hold (the spec's decision D17, log 5): the step changes nothing while the input is
empty and open, and once the host has supplied a character the held call completes as the instruction, with the frame of
`EndsHeldCall`: the register event, then the last rising edge of `step()`. -/
def Obligations.InputServicesWaitForHost : Prop :=
  (∀ s : State, s.input = [] → s.inputClosed = false →
    exec .getc s = .next { s with hold := some ⟨.getc, false⟩ } ∧
    (s.outputAccepts Config.inPrompt.length →
      ∃ t, exec .in_ s = .next t ∧ t.hold = some ⟨.in_, false⟩ ∧ KeepsRegs s t ∧ KeepsMachine s t ∧ KeepsInput s t ∧
        t.output = s.output ++ Config.inPrompt ∧ t.trace = s.trace ∧ t.isRunning = s.isRunning ∧
        t.report = s.report)) ∧
  (∀ (s : State) (h : Hold), s.hold = some h → h.service ≠ .puts → s.input = [] → s.inputClosed = false →
    step s = .next s) ∧
  ∀ (s : State) (h : Hold) (c : Byte) (rest : List InItem), s.hold = some h → s.input = .char c :: rest →
    (h.service = .getc → ∃ t, step s = .next t ∧ EndsHeldCall h [.registerWrite (.gpr 0) (c.setWidth 16)] s t ∧
      t.reg 0 = c.setWidth 16 ∧ t.input = rest ∧ t.inputClosed = s.inputClosed ∧ KeepsOutput s t ∧
      t.report = s.report) ∧
    (h.service = .in_ → s.outputAccepts 1 →
      ∃ t, step s = .next t ∧ EndsHeldCall h [.registerWrite (.gpr 0) (c.setWidth 16)] s t ∧
        t.reg 0 = c.setWidth 16 ∧ t.input = rest ∧ t.inputClosed = s.inputClosed ∧ t.output = s.output ++ [c] ∧
        t.report = s.report)

/-- A held call whose stream then fails ends there with `IoError` (R162; the held call is the model's, log 5, log 6, the
failures its log 3): a GETC or IN whose read fails, an IN whose echo fails, and a PUTS at any character. No register and no
event of the service; `is_running` is unchanged (the spec's decision D16). -/
def Obligations.HeldCallFailureReportsIoError : Prop :=
  ∀ (s : State) (h : Hold), s.hold = some h →
    (h.service ≠ .puts → s.inputFailing →
      ∃ t, step s = .next t ∧ EndsHeldCall h [] s t ∧ KeepsRegs s t ∧ KeepsOutput s t ∧ t.report = some .ioError) ∧
    (h.service = .in_ → ∀ (c : Byte) (rest : List InItem), s.input = .char c :: rest → s.outputFailing →
      ∃ t, step s = .next t ∧ EndsHeldCall h [] s t ∧ KeepsRegs s t ∧ t.input = rest ∧
        t.inputClosed = s.inputClosed ∧ t.output = s.output ∧ t.report = some .ioError) ∧
    (h.service = .puts → ∀ k, k < 65536 → (∀ j, j ≤ k → s.mem.read (s.reg 0 + BitVec.ofNat 16 j) ≠ 0) →
      s.outputFailsAfter k →
      ∃ t, step s = .next t ∧ EndsHeldCall h [] s t ∧ KeepsRegs s t ∧ KeepsInput s t ∧
        t.output = s.output ++ lowBytesFrom s.mem (s.reg 0) k ∧ t.report = some .ioError)

/-- R155: every word `1111 ---- 0010 0101` is HALT. HALT appends `halt` and clears `is_running`; registers, PC, flags,
memory and streams are unchanged and the call returns `ok`; every further edge is recorded only. Started again by the
driver, the engine goes on with the word after the HALT. -/
def Obligations.HaltEndsRun : Prop :=
  (∀ w : Word, bits w 12 4 = 0b1111 → bits w 0 8 = 0x25 → decodeWord w = .halt) ∧ encode .halt = 0xF025 ∧
  (∀ s : State, ∃ t, exec .halt s = .next t ∧ t.isRunning = false ∧ Traced [.halt] s t ∧
    t = { s with isRunning := false, trace := t.trace }) ∧
  ∀ s : State, s.hold = none → s.isRunning = true → decodeWord (s.mem.read s.pc) = .halt →
    ∃ t, step s = .next t ∧ NormalEnd s t ∧ t.pc = s.pc + 1 ∧ KeepsRegs s t ∧ t.flags = s.flags ∧ KeepsMemory s t ∧
      KeepsStreams s t ∧
      (∃ u, setClock false t = .next u ∧ Traced [.edgeFalling] t u ∧ u = { t with clk := false, trace := u.trace }) ∧
      ∃ u, startOp t = .next u ∧ u.isRunning = true ∧
        ∀ v, step u = .next v → v.instr = some (s.mem.read (s.pc + 1))

/-- Every word `1111 ---- v` whose low byte is none of the five vectors (0x00 to 0x1F, 0x24, 0x26 to 0xFF) is an unknown
TRAP. It reports `UnknownTrap` and changes nothing else; after the step `is_running` is still true, the latch holds the TRAP
word and the PC is its address plus one, and the next step runs the word after the TRAP (R156). The step is the spec's
decision D6 (log 8), so its rising edges stand around the events up to `decode`, whose payload is its D9 (log 15). -/
def Obligations.UnknownTrapReportsOnly : Prop :=
  (∀ w : Word, bits w 12 4 = 0b1111 → bits w 0 8 ∉ serviceVectors → decodeWord w = .trap (bits w 0 8)) ∧
  (∀ v : BitVec 8, v ∉ serviceVectors ↔ v.toNat ≤ 0x1F ∨ v.toNat = 0x24 ∨ 0x26 ≤ v.toNat) ∧
  (∀ (v : BitVec 8) (s : State), v ∉ serviceVectors → exec (.trap v) s = .next { s with report := some .unknownTrap }) ∧
  ∀ (s : State) (v : BitVec 8), s.hold = none → s.isRunning = true → decodeWord (s.mem.read s.pc) = .trap v →
    v ∉ serviceVectors →
    ∃ t, step s = .next t ∧ t.report = some .unknownTrap ∧ t.isRunning = true ∧ t.pc = s.pc + 1 ∧
      t.instr = some (s.mem.read s.pc) ∧ KeepsRegs s t ∧ t.flags = s.flags ∧ KeepsMemory s t ∧ KeepsStreams s t ∧
      t.hold = none ∧
      Traced ((if s.clk then [] else [.edgeRising]) ++
        [.edgeFalling, .fetch (s.mem.read s.pc), .decode (s.mem.read s.pc) .TRAP, .edgeRising]) s t ∧
      ∀ u, step t = .next u → u.instr = some (s.mem.read (s.pc + 1))

/-- The two faulting opcodes: `IllegalOpcode` is reported and `is_running` cleared before any register, flag or memory
word changes; after the step the latch holds the word, the PC is its address plus one, no `halt` event is appended, and
the run has ended by a fault, not normally. Opcode 1000 is the spec's decision D3 (log 12), the trace its D11
(log 15). -/
def Obligations.IllegalOpcodeEndsRunByFault : Prop :=
  (∀ s : State, exec .reserved1101 s = .next { s with isRunning := false, report := some .illegalOpcode } ∧
    exec .unlisted1000 s = .next { s with isRunning := false, report := some .illegalOpcode }) ∧
  ∀ s : State, s.hold = none → s.isRunning = true →
    bits (s.mem.read s.pc) 12 4 = 0b1101 ∨ bits (s.mem.read s.pc) 12 4 = 0b1000 →
    ∃ t, step s = .next t ∧ FaultEnd s t ∧ ¬ NormalEnd s t ∧ t.pc = s.pc + 1 ∧ t.instr = some (s.mem.read s.pc) ∧
      KeepsRegs s t ∧ t.flags = s.flags ∧ KeepsMemory s t ∧ KeepsStreams s t ∧
      Traced ((if s.clk then [] else [.edgeRising]) ++
        [.edgeFalling, .fetch (s.mem.read s.pc),
         .decode (s.mem.read s.pc) (decodeWord (s.mem.read s.pc)).rowClass, .edgeRising]) s t

/-- A run ends only by HALT, normally, or by a faulting opcode, by a fault, never both (R116), whether the cascade came from
a `step()` or a single `set_clock(false)`; the state it leaves has the registers, flags and memory it had. `UnknownTrap` and
`IoError` end no run (for `IoError` the spec's decision D16). Opcode 1000 is its D3 (log 12). -/
def Obligations.RunEndsByHaltOrIllegalOpcode : Prop :=
  (∀ s t : State, EndsRun s t → s.hold = none ∧ t.hold = none ∧ KeepsRegs s t ∧ t.flags = s.flags ∧ KeepsMemory s t ∧
    KeepsStreams s t ∧ t.pc = s.pc + 1 ∧ t.instr = some (s.mem.read s.pc) ∧
    ((decodeWord (s.mem.read s.pc) = .halt ∧ NormalEnd s t ∧ ¬ FaultEnd s t) ∨
      ((decodeWord (s.mem.read s.pc) = .reserved1101 ∨ decodeWord (s.mem.read s.pc) = .unlisted1000) ∧
        FaultEnd s t ∧ ¬ NormalEnd s t))) ∧
  (∀ s : State, s.hold = none → s.isRunning = true → s.clk = true →
    (decodeWord (s.mem.read s.pc) = .halt → ∃ t, setClock false s = .next t ∧ NormalEnd s t) ∧
    (decodeWord (s.mem.read s.pc) = .reserved1101 ∨ decodeWord (s.mem.read s.pc) = .unlisted1000 →
      ∃ t, setClock false s = .next t ∧ FaultEnd s t)) ∧
  (∀ s t : State, Call s t → s.isRunning = true → t.report = some .unknownTrap ∨ t.report = some .ioError →
    t.isRunning = true) ∧
  ∀ (n : Nat) (s f : State), RunEndsAfter n s f →
    s.isRunning = true ∧ f.isRunning = false ∧ ∃ u, EndsRun u f ∧ (NormalEnd u f ∨ FaultEnd u f)

/-! ## Rules of the whole machine -/

/-- A step never sets `is_running`, and it clears it exactly when it runs HALT or a faulting opcode (R29); a held call going
on (log 5, log 6) leaves it as it is. -/
def Obligations.OnlyHaltAndIllegalOpcodeStop : Prop :=
  (∀ s t : State, step s = .next t → t.isRunning = true → s.isRunning = true) ∧
  (∀ s t : State, s.hold ≠ none → step s = .next t → t.isRunning = s.isRunning) ∧
  ∀ s t : State, s.hold = none → s.isRunning = true → step s = .next t →
    (t.isRunning = false ↔ decodeWord (s.mem.read s.pc) = .halt ∨
      decodeWord (s.mem.read s.pc) = .reserved1101 ∨ decodeWord (s.mem.read s.pc) = .unlisted1000)

/-- Each error kind is reported for its cause only (R170): `IllegalOpcode` exactly for the two faulting opcodes,
`UnknownTrap` exactly for a TRAP that names no service, `IoError` for a character service only; every other instruction
reports nothing. A held call going on (log 5, log 6) reports nothing new but `IoError`. Opcode 1000 is the spec's decision
D3 (log 12). -/
def Obligations.ErrorsOnlyFromTheirCauses : Prop :=
  (∀ s t : State, s.hold ≠ none → step s = .next t → t.report = s.report ∨ t.report = some .ioError) ∧
  ∀ s t : State, s.hold = none → s.isRunning = true → step s = .next t →
    (t.report = some .illegalOpcode ↔ decodeWord (s.mem.read s.pc) = .reserved1101 ∨
      decodeWord (s.mem.read s.pc) = .unlisted1000) ∧
    (t.report = some .unknownTrap ↔ ∃ v, decodeWord (s.mem.read s.pc) = .trap v) ∧
    (t.report = some .ioError → decodeWord (s.mem.read s.pc) = .getc ∨ decodeWord (s.mem.read s.pc) = .out ∨
      decodeWord (s.mem.read s.pc) = .puts ∨ decodeWord (s.mem.read s.pc) = .in_)

/-- Tracing never changes what the engine computes (R111): from two states that differ at most in the trace log and in
`tracing`, a step leads to two states that differ at most there. -/
def Obligations.TracingDoesNotMatter : Prop :=
  ∀ s s' t t' : State, SameButTrace s s' → step s = .next t → step s' = .next t' → SameButTrace t t'

/-- The trace log and the output stream only grow, and with `tracing` false the log stays as it is; no step changes
`tracing` (R30, R34, R161). -/
def Obligations.TraceAndOutputOnlyGrow : Prop :=
  ∀ s t : State, step s = .next t →
    t.tracing = s.tracing ∧ (∃ evs, t.trace = s.trace ++ evs) ∧ (s.tracing = false → t.trace = s.trace) ∧
    ∃ bs, t.output = s.output ++ bs

/-! ## The driver -/

/-- `start()` sets `is_running` and nothing else; `set_tracing(b)` sets `tracing` and nothing else; both are refused by
name, as every other operation on the engine is, while a call holds (the spec's decisions D5 and D26; log 20). -/
def Obligations.StartAndSetTracing : Prop :=
  (∀ s : State, s.hold = none → startOp s = .next { s with isRunning := true } ∧
    ∀ b, setTracing b s = .next { s with tracing := b }) ∧
  ∀ s : State, s.hold ≠ none → startOp s = .refused .callInProgress ∧
    ∀ b, setTracing b s = .refused .callInProgress ∧ setClock b s = .refused .callInProgress ∧
      resetOp b s = .refused .callInProgress ∧ ∀ o ws, loadImage o ws b s = .refused .callInProgress

/-- The loader, whether the sequence fits or wraps with leave: word `k` of the sequence goes to address `origin + k` modulo
65536, a later word to the same address overwriting an earlier one; every address that no word goes to is unchanged; the PC
becomes the origin, and nothing else changes (R61, R62). The admission only while `is_running` is false, and the PC write by
every load, are the spec's decision D19 (log 20). -/
def Obligations.LoaderWritesConsecutively : Prop :=
  ∀ (s : State) (origin : Word) (words : List Word) (wrap : Bool), s.hold = none → s.isRunning = false →
    wrap = true ∨ origin.toNat + words.length ≤ 65536 →
    ∃ t, loadImage origin words wrap s = .next t ∧ t.pc = origin ∧
      (∀ k, (h : k < words.length) → words.length ≤ k + 65536 → t.mem.read (origin + BitVec.ofNat 16 k) = words[k]) ∧
      (∀ a : Word, (∀ k, k < words.length → a ≠ origin + BitVec.ofNat 16 k) → t.mem.read a = s.mem.read a) ∧
      t = { s with mem := t.mem, pc := origin }

/-- `AddressOverflow` exactly when the sequence would pass address 65535 and the caller did not allow it; the call then
does nothing, and with leave to wrap it is no error (R62; that the check comes before any write is the spec's decision
D19). -/
def Obligations.LoaderOverflowsExactlyPastTheEnd : Prop :=
  ∀ (s : State) (origin : Word) (words : List Word), s.hold = none → s.isRunning = false →
    (loadImage origin words false s = .fault .addressOverflow ↔ 65536 < origin.toNat + words.length) ∧
    ∃ t, loadImage origin words true s = .next t

/-- The image format (R63): big-endian words, the first the origin, so loading the bytes of a word sequence is loading
the words, and loading the hexadecimal digits of the bytes is loading the bytes; an odd number of bytes, or none, is
refused (D19, log 20). -/
def Obligations.ByteImageLoadsItsWords : Prop :=
  (∀ (words : List Word) (wrap : Bool) (s : State),
    loadBytes (words.flatMap (fun w => [w.extractLsb' 8 8, w.extractLsb' 0 8])) wrap s = loadWords words wrap s) ∧
  (∀ (origin : Word) (words : List Word) (wrap : Bool) (s : State),
    loadWords (origin :: words) wrap s = loadImage origin words wrap s) ∧
  (∀ (bytes : List Byte) (wrap : Bool) (s : State),
    loadHex (bytes.flatMap (fun b => [b.extractLsb' 4 4, b.extractLsb' 0 4])) wrap s = loadBytes bytes wrap s) ∧
  ∀ (bytes : List Byte) (wrap : Bool) (s : State), bytes.length % 2 = 1 ∨ bytes = [] →
    loadBytes bytes wrap s = .refused .malformedImage
end

