-- ==== Sys2Proof/Laws/Decode.lean ====
section
/-! SUPPORT. The decoder reads back each format of R82, field by field; opcodes and their bits are one to one. -/

namespace Sys2Proof

@[simp] theorem Opcode.ofBits_bits (o : Opcode) : Opcode.ofBits o.bits = o := by
  cases o <;> rfl

theorem Opcode.bits_ofBits : ∀ b : BitVec 4, (Opcode.ofBits b).bits = b := by decide

theorem regField_eq_of_bits {w : Word} {lo : Nat} {r : Reg} (h : bits w lo 3 = regBits r) : regField w lo = r := by
  simp [regField, h, regBits]

/-! ## Fields of each format -/

section Formats
variable (op : Opcode) (r a b : Reg)

theorem fmtOpR_fields :
    bits (fmtOpR op r a b) 12 4 = op.bits ∧ regField (fmtOpR op r a b) 9 = r ∧ regField (fmtOpR op r a b) 6 = a ∧
      flagBit (fmtOpR op r a b) 5 = false ∧ regField (fmtOpR op r a b) 0 = b := by
  refine ⟨?_, ?_, ?_, ?_, ?_⟩
  · simp only [bits, fmtOpR, regBits]; grind
  · exact regField_eq_of_bits (by simp only [bits, fmtOpR, regBits]; grind)
  · exact regField_eq_of_bits (by simp only [bits, fmtOpR, regBits]; grind)
  · simp only [flagBit, fmtOpR, regBits]; grind
  · exact regField_eq_of_bits (by simp only [bits, fmtOpR, regBits]; grind)

theorem fmtOpI_fields (i : BitVec 5) :
    bits (fmtOpI op r a i) 12 4 = op.bits ∧ regField (fmtOpI op r a i) 9 = r ∧ regField (fmtOpI op r a i) 6 = a ∧
      flagBit (fmtOpI op r a i) 5 = true ∧ bits (fmtOpI op r a i) 0 5 = i := by
  refine ⟨?_, ?_, ?_, ?_, ?_⟩
  · simp only [bits, fmtOpI, regBits]; grind
  · exact regField_eq_of_bits (by simp only [bits, fmtOpI, regBits]; grind)
  · exact regField_eq_of_bits (by simp only [bits, fmtOpI, regBits]; grind)
  · simp only [flagBit, fmtOpI, regBits]; grind
  · simp only [bits, fmtOpI, regBits]; grind

theorem fmtPc9_fields (off : BitVec 9) :
    bits (fmtPc9 op r off) 12 4 = op.bits ∧ regField (fmtPc9 op r off) 9 = r ∧ bits (fmtPc9 op r off) 0 9 = off := by
  refine ⟨?_, ?_, ?_⟩
  · simp only [bits, fmtPc9, regBits]; grind
  · exact regField_eq_of_bits (by simp only [bits, fmtPc9, regBits]; grind)
  · simp only [bits, fmtPc9, regBits]; grind

theorem fmtBase6_fields (off : BitVec 6) :
    bits (fmtBase6 op r a off) 12 4 = op.bits ∧ regField (fmtBase6 op r a off) 9 = r ∧
      regField (fmtBase6 op r a off) 6 = a ∧ bits (fmtBase6 op r a off) 0 6 = off := by
  refine ⟨?_, ?_, ?_, ?_⟩
  · simp only [bits, fmtBase6, regBits]; grind
  · exact regField_eq_of_bits (by simp only [bits, fmtBase6, regBits]; grind)
  · exact regField_eq_of_bits (by simp only [bits, fmtBase6, regBits]; grind)
  · simp only [bits, fmtBase6, regBits]; grind

theorem fmtBr_fields (n z p : Bool) (off : BitVec 9) :
    bits (fmtBr n z p off) 12 4 = Opcode.br.bits ∧ flagBit (fmtBr n z p off) 11 = n ∧
      flagBit (fmtBr n z p off) 10 = z ∧ flagBit (fmtBr n z p off) 9 = p ∧ bits (fmtBr n z p off) 0 9 = off := by
  refine ⟨?_, ?_, ?_, ?_, ?_⟩ <;> simp only [bits, flagBit, fmtBr] <;> grind

theorem fmtJump_fields :
    bits (fmtJump op a) 12 4 = op.bits ∧ regField (fmtJump op a) 6 = a ∧ flagBit (fmtJump op a) 11 = false := by
  refine ⟨?_, ?_, ?_⟩
  · simp only [bits, fmtJump, regBits]; grind
  · exact regField_eq_of_bits (by simp only [bits, fmtJump, regBits]; grind)
  · simp only [flagBit, fmtJump, regBits]; grind

theorem fmtJsr_fields (off : BitVec 11) :
    bits (fmtJsr off) 12 4 = Opcode.jsr.bits ∧ flagBit (fmtJsr off) 11 = true ∧ bits (fmtJsr off) 0 11 = off := by
  refine ⟨?_, ?_, ?_⟩ <;> simp only [bits, flagBit, fmtJsr] <;> grind

theorem fmtTrap_fields (v : BitVec 8) : bits (fmtTrap v) 12 4 = Opcode.trap.bits ∧ bits (fmtTrap v) 0 8 = v := by
  refine ⟨?_, ?_⟩ <;> simp only [bits, fmtTrap] <;> grind

theorem fmtNone_fields : bits (fmtNone op) 12 4 = op.bits := by
  simp only [bits, fmtNone]
  grind

end Formats

/-! ## Choosing among names -/

/-- The vectors that name no service stay a TRAP (R156). -/
theorem trapInstr_wf (v : BitVec 8) (h : (Instr.trap v).wf = true) : trapInstr v = .trap v := by
  simp only [Instr.wf, serviceVectors] at h
  simp at h
  simp [trapInstr, h]

/-- Two bytes make one word, high byte first (R63). -/
theorem decodeBytes_cons (hi lo : Byte) (rest : List Byte) :
    decodeBytes (hi :: lo :: rest) = .ok (decodeWord (wordOfBytes hi lo), rest) := rfl

@[simp] theorem tableWord_16 (w : Word) : tableWord 16 w.toNat = w := by
  simp [tableWord, Nat.mod_eq_of_lt w.isLt]

/-! ## The class of a word, and the masks of the main rows (R96) -/

@[simp] theorem brInstr_rowClass (n z p : Bool) (off : BitVec 9) : (brInstr n z p off).rowClass = .BR := by
  unfold brInstr; split <;> rfl

@[simp] theorem jmpInstr_rowClass (b : Reg) : (jmpInstr b).rowClass = .JMP := by unfold jmpInstr; split <;> rfl

@[simp] theorem trapInstr_rowClass (v : BitVec 8) : (trapInstr v).rowClass = .TRAP := by
  unfold trapInstr
  repeat' split
  all_goals rfl

/-- The class of a word depends on its opcode, and for ADD and AND on bit 5, for JSR on bit 11. -/
theorem rowClass_decodeWord (w : Word) : (decodeWord w).rowClass =
    match Opcode.ofBits (bits w 12 4) with
    | .br => .BR
    | .add => if flagBit w 5 then .ADD_IMM else .ADD_REG
    | .ld => .LD
    | .st => .ST
    | .jsr => if flagBit w 11 then .JSR else .JSRR
    | .and => if flagBit w 5 then .AND_IMM else .AND_REG
    | .ldr => .LDR
    | .str => .STR
    | .unlisted1000 => .UNLISTED_1000
    | .not => .NOT
    | .ldi => .LDI
    | .sti => .STI
    | .jmp => .JMP
    | .reserved1101 => .RESERVED_1101
    | .lea => .LEA
    | .trap => .TRAP := by
  unfold decodeWord
  cases Opcode.ofBits (bits w 12 4) <;> simp only [brInstr_rowClass, jmpInstr_rowClass, trapInstr_rowClass] <;>
    (try split) <;> rfl

theorem and_opcode (w : Word) : w &&& 0xF000 = bits w 12 4 ++ 0#12 := by
  ext i hi
  have : ∀ (j : Nat) (h : j < 16), (0xF000#16)[j] = decide (12 ≤ j) := by decide
  simp only [bits, BitVec.getElem_and]
  grind

theorem and_opcode_11 (w : Word) : w &&& 0xF800 = bits w 12 4 ++ BitVec.ofBool (flagBit w 11) ++ 0#11 := by
  ext i hi
  have : ∀ (j : Nat) (h : j < 16), (0xF800#16)[j] = decide (11 ≤ j) := by decide
  simp only [bits, flagBit, BitVec.getElem_and]
  grind

theorem and_opcode_5 (w : Word) : w &&& 0xF020 = bits w 12 4 ++ 0#6 ++ BitVec.ofBool (flagBit w 5) ++ 0#5 := by
  ext i hi
  have : ∀ (j : Nat) (h : j < 16), (0xF020#16)[j] = (decide (12 ≤ j) || decide (j = 5)) := by decide
  simp only [bits, flagBit, BitVec.getElem_and]
  grind

end Sys2Proof
end

