-- ==== Sys2Proof/Laws/Memory.lean ====
section
/-! SUPPORT. Memory: a read after a write, and that every operation keeps the canonical form. -/

namespace Sys2Proof.Machine

/-! ## One byte -/

theorem Memory.byteAt_dropKey (m : Memory) (k j : Nat) : (m.dropKey k).byteAt j = if j = k then 0 else m.byteAt j := by
  induction m with
  | nil => simp [Memory.dropKey, Memory.byteAt]
  | cons c rest ih =>
    obtain ⟨a, b⟩ := c
    simp only [Memory.dropKey] at ih ⊢
    by_cases hak : a = k
    · subst hak; simp [Memory.byteAt, ih]; split <;> simp_all [eq_comm]
    · simp [hak, Memory.byteAt, ih]; split <;> simp_all

theorem Memory.byteAt_insertKey (m : Memory) (k j : Nat) (b : Byte) (h : m.byteAt k = 0 ∧ ∀ c ∈ m, c.1 ≠ k) :
    (m.insertKey k b).byteAt j = if j = k then b else m.byteAt j := by
  induction m with
  | nil => simp [Memory.insertKey, Memory.byteAt, eq_comm]
  | cons c rest ih =>
    obtain ⟨a, x⟩ := c
    have hak : a ≠ k := h.2 (a, x) (by simp)
    have hr : Memory.byteAt rest k = 0 := by simpa [Memory.byteAt, hak] using h.1
    have ih := ih ⟨hr, fun c hc => h.2 c (by simp [hc])⟩
    unfold Memory.insertKey
    split
    · simp [Memory.byteAt, eq_comm]
    · simp only [Memory.byteAt, ih]; split <;> simp_all

theorem Memory.dropKey_no_key (m : Memory) (k : Nat) : ∀ c ∈ m.dropKey k, c.1 ≠ k := by
  simp [Memory.dropKey]

/-- Reading one byte after writing one. -/
theorem Memory.byteAt_setByte (m : Memory) (k j : Nat) (b : Byte) :
    (m.setByte k b).byteAt j = if j = k then b else m.byteAt j := by
  unfold Memory.setByte
  split
  · simp_all [Memory.byteAt_dropKey]
  · rw [Memory.byteAt_insertKey _ _ _ _ ⟨by simp [Memory.byteAt_dropKey], m.dropKey_no_key k⟩, Memory.byteAt_dropKey]
    split <;> rfl

/-! ## One word -/

theorem word_of_halves (w : Word) : w.extractLsb' 8 8 ++ w.extractLsb' 0 8 = w := by grind

/-- R51, R52: a read after a write to the same address gives the value written. -/
@[simp] theorem Memory.read_write_same (m : Memory) (a v : Word) : (m.write a v).read a = v := by
  simp [Memory.read, Memory.write, Memory.byteAt_setByte, word_of_halves]

/-- R52: a write leaves every other address alone. -/
theorem Memory.read_write_other (m : Memory) (a b v : Word) (h : b ≠ a) : (m.write a v).read b = m.read b := by
  have h' : b.toNat ≠ a.toNat := fun e => h (BitVec.eq_of_toNat_eq e)
  simp only [Memory.read, Memory.write, Memory.byteAt_setByte]
  rw [if_neg (by omega), if_neg (by omega), if_neg (by omega), if_neg (by omega)]

theorem Memory.read_write (m : Memory) (a b v : Word) : (m.write a v).read b = if b = a then v else m.read b := by
  split
  · subst b; simp
  · exact m.read_write_other a b v ‹_›

/-- R53: never-written memory reads zero. -/
@[simp] theorem Memory.read_empty (a : Word) : Memory.read [] a = 0 := by
  simp [Memory.read, Memory.byteAt]

/-! ## The canonical form -/

theorem Memory.wf_iff (m : Memory) :
    m.wf = true ↔ m.Pairwise (fun c d => c.1 < d.1) ∧ ∀ c ∈ m, c.2 ≠ 0 ∧ c.1 < 2 * Config.memWords := by
  simp [Memory.wf]

theorem Memory.wf_dropKey (m : Memory) (k : Nat) (h : m.wf = true) : (m.dropKey k).wf = true := by
  rw [Memory.wf_iff] at h ⊢
  exact ⟨h.1.filter _, fun c hc => h.2 c (List.mem_of_mem_filter hc)⟩

theorem Memory.mem_insertKey (m : Memory) (k : Nat) (b : Byte) (c : Host.Cell) :
    c ∈ m.insertKey k b ↔ c = (k, b) ∨ c ∈ m := by
  induction m with
  | nil => simp [Memory.insertKey]
  | cons d rest ih =>
    obtain ⟨a, x⟩ := d
    unfold Memory.insertKey
    split
    · simp
    · simp [ih]; tauto

theorem Memory.wf_insertKey (m : Memory) (k : Nat) (b : Byte) (h : m.wf = true) (hk : ∀ c ∈ m, c.1 ≠ k) (hb : b ≠ 0)
    (hlt : k < 2 * Config.memWords) : (m.insertKey k b).wf = true := by
  rw [Memory.wf_iff] at h ⊢
  refine ⟨?_, fun c hc => ?_⟩
  · induction m with
    | nil => simp [Memory.insertKey]
    | cons d rest ih =>
      obtain ⟨a, x⟩ := d
      have hd := List.pairwise_cons.1 h.1
      have hak : a ≠ k := hk (a, x) (by simp)
      unfold Memory.insertKey
      split
      · refine List.pairwise_cons.2 ⟨fun c hc => ?_, h.1⟩
        rcases List.mem_cons.1 hc with rfl | hc
        · assumption
        · have := hd.1 c hc; simp only at *; omega
      · refine List.pairwise_cons.2 ⟨fun c hc => ?_, ih ⟨hd.2, fun c hc => h.2 c (by simp [hc])⟩ (fun c hc => hk c (by simp [hc]))⟩
        rcases (Memory.mem_insertKey rest k b c).1 hc with rfl | hc
        · simp only at *; omega
        · exact hd.1 c hc
  · rcases (Memory.mem_insertKey m k b c).1 hc with rfl | hc
    · exact ⟨hb, hlt⟩
    · exact h.2 c hc

theorem Memory.wf_setByte (m : Memory) (k : Nat) (b : Byte) (h : m.wf = true) (hlt : k < 2 * Config.memWords) :
    (m.setByte k b).wf = true := by
  unfold Memory.setByte
  split
  · exact m.wf_dropKey k h
  · exact Memory.wf_insertKey _ k b (m.wf_dropKey k h) (m.dropKey_no_key k) ‹_› hlt

/-- Every write keeps the canonical form. -/
theorem Memory.wf_write (m : Memory) (a v : Word) (h : m.wf = true) : (m.write a v).wf = true := by
  have := a.isLt
  exact Memory.wf_setByte _ _ _ (m.wf_setByte _ _ h (by simp only [Config.memWords]; omega))
    (by simp only [Config.memWords]; omega)

/-- The loader keeps the canonical form. -/
theorem Memory.wf_writeAll (words : List Word) (m : Memory) (a : Word) (h : m.wf = true) :
    (m.writeAll a words).wf = true := by
  induction words generalizing m a with
  | nil => exact h
  | cons w rest ih => exact ih _ _ (m.wf_write a w h)

end Sys2Proof.Machine
end

