-- ==== Sys2Proof/Laws/Operands.lean ====
section
/-! SUPPORT. Sign extension as the spec writes it (R7) is the sign extension of bit vectors; the evaluator's category is
the sign of the value (R26). -/

namespace Sys2Proof.Machine

theorem ones_getElem : ∀ (j : Nat) (h : j < 16), (0xFFFF#16)[j] = true := by decide

/-- R7 in other words: "widen a signed field of width W to 16 bits, replicating its sign bit into the higher bits". -/
theorem sext_eq_signExtend {n : Nat} (f : BitVec n) (_hn : n ≤ 16) : sext f = f.signExtend 16 := by
  ext i hi
  unfold sext signFill
  rw [BitVec.getElem_signExtend]
  cases hm : f.msb <;> by_cases hin : i < n <;> simp [hin, BitVec.getElem_setWidth] <;>
    grind [ones_getElem]

@[simp] theorem sext_5 (f : BitVec 5) : sext f = f.signExtend 16 := sext_eq_signExtend f (by decide)
@[simp] theorem sext_6 (f : BitVec 6) : sext f = f.signExtend 16 := sext_eq_signExtend f (by decide)
@[simp] theorem sext_9 (f : BitVec 9) : sext f = f.signExtend 16 := sext_eq_signExtend f (by decide)
@[simp] theorem sext_11 (f : BitVec 11) : sext f = f.signExtend 16 := sext_eq_signExtend f (by decide)

theorem signCategory_eq_N (v : Word) : signCategory v = .N ↔ v.getLsbD 15 = true := by
  unfold signCategory
  split
  · simp [*]
  · split <;> simp_all

theorem signCategory_eq_Z (v : Word) : signCategory v = .Z ↔ v = 0 := by
  unfold signCategory
  split
  · constructor
    · intro h; cases h
    · rintro rfl; simp_all
  · split <;> simp_all

/-- BR's test (R140) in terms of the one flag that is true. -/
theorem branchTaken_iff (n z p : Bool) (s : State) : branchTaken n z p s = true ↔
    (n = true ∧ s.flags = some .N) ∨ (z = true ∧ s.flags = some .Z) ∨ (p = true ∧ s.flags = some .P) := by
  simp [branchTaken, State.flagN, State.flagZ, State.flagP, or_assoc]

end Sys2Proof.Machine
end

