-- ==== Sys2Proof/Laws/State.lean ====
section
/-! SUPPORT. One lemma per field per update, all by `rfl` or one case split, so that no later proof unfolds a record
update; and the values of registers after a write. -/

namespace Sys2Proof.Machine

/-! ## emit -/

@[simp] theorem State.emit_regs (s : State) (e : Event) : (s.emit e).regs = s.regs := rfl
@[simp] theorem State.emit_pc (s : State) (e : Event) : (s.emit e).pc = s.pc := rfl
@[simp] theorem State.emit_flags (s : State) (e : Event) : (s.emit e).flags = s.flags := rfl
@[simp] theorem State.emit_clk (s : State) (e : Event) : (s.emit e).clk = s.clk := rfl
@[simp] theorem State.emit_isRunning (s : State) (e : Event) : (s.emit e).isRunning = s.isRunning := rfl
@[simp] theorem State.emit_tracing (s : State) (e : Event) : (s.emit e).tracing = s.tracing := rfl
@[simp] theorem State.emit_instr (s : State) (e : Event) : (s.emit e).instr = s.instr := rfl
@[simp] theorem State.emit_edgeSeen (s : State) (e : Event) : (s.emit e).edgeSeen = s.edgeSeen := rfl
@[simp] theorem State.emit_mem (s : State) (e : Event) : (s.emit e).mem = s.mem := rfl
@[simp] theorem State.emit_trace (s : State) (e : Event) : (s.emit e).trace = (if s.tracing then s.trace ++ [e] else s.trace) := rfl
@[simp] theorem State.emit_input (s : State) (e : Event) : (s.emit e).input = s.input := rfl
@[simp] theorem State.emit_inputClosed (s : State) (e : Event) : (s.emit e).inputClosed = s.inputClosed := rfl
@[simp] theorem State.emit_output (s : State) (e : Event) : (s.emit e).output = s.output := rfl
@[simp] theorem State.emit_outFails (s : State) (e : Event) : (s.emit e).outFails = s.outFails := rfl
@[simp] theorem State.emit_outputClosed (s : State) (e : Event) : (s.emit e).outputClosed = s.outputClosed := rfl
@[simp] theorem State.emit_hold (s : State) (e : Event) : (s.emit e).hold = s.hold := rfl
@[simp] theorem State.emit_report (s : State) (e : Event) : (s.emit e).report = s.report := rfl

/-! ## setReg -/

@[simp] theorem State.setReg_regs (s : State) (r : Reg) (v : Word) : (s.setReg r v).regs = s.regs.set r.val v r.isLt := rfl
@[simp] theorem State.setReg_pc (s : State) (r : Reg) (v : Word) : (s.setReg r v).pc = s.pc := rfl
@[simp] theorem State.setReg_flags (s : State) (r : Reg) (v : Word) : (s.setReg r v).flags = s.flags := rfl
@[simp] theorem State.setReg_clk (s : State) (r : Reg) (v : Word) : (s.setReg r v).clk = s.clk := rfl
@[simp] theorem State.setReg_isRunning (s : State) (r : Reg) (v : Word) : (s.setReg r v).isRunning = s.isRunning := rfl
@[simp] theorem State.setReg_tracing (s : State) (r : Reg) (v : Word) : (s.setReg r v).tracing = s.tracing := rfl
@[simp] theorem State.setReg_instr (s : State) (r : Reg) (v : Word) : (s.setReg r v).instr = s.instr := rfl
@[simp] theorem State.setReg_edgeSeen (s : State) (r : Reg) (v : Word) : (s.setReg r v).edgeSeen = s.edgeSeen := rfl
@[simp] theorem State.setReg_mem (s : State) (r : Reg) (v : Word) : (s.setReg r v).mem = s.mem := rfl
@[simp] theorem State.setReg_trace (s : State) (r : Reg) (v : Word) : (s.setReg r v).trace = s.trace := rfl
@[simp] theorem State.setReg_input (s : State) (r : Reg) (v : Word) : (s.setReg r v).input = s.input := rfl
@[simp] theorem State.setReg_inputClosed (s : State) (r : Reg) (v : Word) : (s.setReg r v).inputClosed = s.inputClosed := rfl
@[simp] theorem State.setReg_output (s : State) (r : Reg) (v : Word) : (s.setReg r v).output = s.output := rfl
@[simp] theorem State.setReg_outFails (s : State) (r : Reg) (v : Word) : (s.setReg r v).outFails = s.outFails := rfl
@[simp] theorem State.setReg_outputClosed (s : State) (r : Reg) (v : Word) : (s.setReg r v).outputClosed = s.outputClosed := rfl
@[simp] theorem State.setReg_hold (s : State) (r : Reg) (v : Word) : (s.setReg r v).hold = s.hold := rfl
@[simp] theorem State.setReg_report (s : State) (r : Reg) (v : Word) : (s.setReg r v).report = s.report := rfl

/-! ## writeReg -/

@[simp] theorem State.writeReg_regs (s : State) (r : Reg) (v : Word) : (s.writeReg r v).regs = s.regs.set r.val v r.isLt := rfl
@[simp] theorem State.writeReg_pc (s : State) (r : Reg) (v : Word) : (s.writeReg r v).pc = s.pc := rfl
@[simp] theorem State.writeReg_flags (s : State) (r : Reg) (v : Word) : (s.writeReg r v).flags = s.flags := rfl
@[simp] theorem State.writeReg_clk (s : State) (r : Reg) (v : Word) : (s.writeReg r v).clk = s.clk := rfl
@[simp] theorem State.writeReg_isRunning (s : State) (r : Reg) (v : Word) : (s.writeReg r v).isRunning = s.isRunning := rfl
@[simp] theorem State.writeReg_tracing (s : State) (r : Reg) (v : Word) : (s.writeReg r v).tracing = s.tracing := rfl
@[simp] theorem State.writeReg_instr (s : State) (r : Reg) (v : Word) : (s.writeReg r v).instr = s.instr := rfl
@[simp] theorem State.writeReg_edgeSeen (s : State) (r : Reg) (v : Word) : (s.writeReg r v).edgeSeen = s.edgeSeen := rfl
@[simp] theorem State.writeReg_mem (s : State) (r : Reg) (v : Word) : (s.writeReg r v).mem = s.mem := rfl
@[simp] theorem State.writeReg_trace (s : State) (r : Reg) (v : Word) : (s.writeReg r v).trace = (if s.tracing then s.trace ++ [.registerWrite (.gpr r) v] else s.trace) := rfl
@[simp] theorem State.writeReg_input (s : State) (r : Reg) (v : Word) : (s.writeReg r v).input = s.input := rfl
@[simp] theorem State.writeReg_inputClosed (s : State) (r : Reg) (v : Word) : (s.writeReg r v).inputClosed = s.inputClosed := rfl
@[simp] theorem State.writeReg_output (s : State) (r : Reg) (v : Word) : (s.writeReg r v).output = s.output := rfl
@[simp] theorem State.writeReg_outFails (s : State) (r : Reg) (v : Word) : (s.writeReg r v).outFails = s.outFails := rfl
@[simp] theorem State.writeReg_outputClosed (s : State) (r : Reg) (v : Word) : (s.writeReg r v).outputClosed = s.outputClosed := rfl
@[simp] theorem State.writeReg_hold (s : State) (r : Reg) (v : Word) : (s.writeReg r v).hold = s.hold := rfl
@[simp] theorem State.writeReg_report (s : State) (r : Reg) (v : Word) : (s.writeReg r v).report = s.report := rfl

/-! ## writePc -/

@[simp] theorem State.writePc_regs (s : State) (v : Word) : (s.writePc v).regs = s.regs := rfl
@[simp] theorem State.writePc_pc (s : State) (v : Word) : (s.writePc v).pc = v := rfl
@[simp] theorem State.writePc_flags (s : State) (v : Word) : (s.writePc v).flags = s.flags := rfl
@[simp] theorem State.writePc_clk (s : State) (v : Word) : (s.writePc v).clk = s.clk := rfl
@[simp] theorem State.writePc_isRunning (s : State) (v : Word) : (s.writePc v).isRunning = s.isRunning := rfl
@[simp] theorem State.writePc_tracing (s : State) (v : Word) : (s.writePc v).tracing = s.tracing := rfl
@[simp] theorem State.writePc_instr (s : State) (v : Word) : (s.writePc v).instr = s.instr := rfl
@[simp] theorem State.writePc_edgeSeen (s : State) (v : Word) : (s.writePc v).edgeSeen = s.edgeSeen := rfl
@[simp] theorem State.writePc_mem (s : State) (v : Word) : (s.writePc v).mem = s.mem := rfl
@[simp] theorem State.writePc_trace (s : State) (v : Word) : (s.writePc v).trace = (if s.tracing then s.trace ++ [.registerWrite .pc v] else s.trace) := rfl
@[simp] theorem State.writePc_input (s : State) (v : Word) : (s.writePc v).input = s.input := rfl
@[simp] theorem State.writePc_inputClosed (s : State) (v : Word) : (s.writePc v).inputClosed = s.inputClosed := rfl
@[simp] theorem State.writePc_output (s : State) (v : Word) : (s.writePc v).output = s.output := rfl
@[simp] theorem State.writePc_outFails (s : State) (v : Word) : (s.writePc v).outFails = s.outFails := rfl
@[simp] theorem State.writePc_outputClosed (s : State) (v : Word) : (s.writePc v).outputClosed = s.outputClosed := rfl
@[simp] theorem State.writePc_hold (s : State) (v : Word) : (s.writePc v).hold = s.hold := rfl
@[simp] theorem State.writePc_report (s : State) (v : Word) : (s.writePc v).report = s.report := rfl

/-! ## memWrite -/

@[simp] theorem State.memWrite_regs (s : State) (a v : Word) : (s.memWrite a v).regs = s.regs := rfl
@[simp] theorem State.memWrite_pc (s : State) (a v : Word) : (s.memWrite a v).pc = s.pc := rfl
@[simp] theorem State.memWrite_flags (s : State) (a v : Word) : (s.memWrite a v).flags = s.flags := rfl
@[simp] theorem State.memWrite_clk (s : State) (a v : Word) : (s.memWrite a v).clk = s.clk := rfl
@[simp] theorem State.memWrite_isRunning (s : State) (a v : Word) : (s.memWrite a v).isRunning = s.isRunning := rfl
@[simp] theorem State.memWrite_tracing (s : State) (a v : Word) : (s.memWrite a v).tracing = s.tracing := rfl
@[simp] theorem State.memWrite_instr (s : State) (a v : Word) : (s.memWrite a v).instr = s.instr := rfl
@[simp] theorem State.memWrite_edgeSeen (s : State) (a v : Word) : (s.memWrite a v).edgeSeen = s.edgeSeen := rfl
@[simp] theorem State.memWrite_mem (s : State) (a v : Word) : (s.memWrite a v).mem = s.mem.write a v := rfl
@[simp] theorem State.memWrite_trace (s : State) (a v : Word) : (s.memWrite a v).trace = (if s.tracing then s.trace ++ [.memoryWrite a v] else s.trace) := rfl
@[simp] theorem State.memWrite_input (s : State) (a v : Word) : (s.memWrite a v).input = s.input := rfl
@[simp] theorem State.memWrite_inputClosed (s : State) (a v : Word) : (s.memWrite a v).inputClosed = s.inputClosed := rfl
@[simp] theorem State.memWrite_output (s : State) (a v : Word) : (s.memWrite a v).output = s.output := rfl
@[simp] theorem State.memWrite_outFails (s : State) (a v : Word) : (s.memWrite a v).outFails = s.outFails := rfl
@[simp] theorem State.memWrite_outputClosed (s : State) (a v : Word) : (s.memWrite a v).outputClosed = s.outputClosed := rfl
@[simp] theorem State.memWrite_hold (s : State) (a v : Word) : (s.memWrite a v).hold = s.hold := rfl
@[simp] theorem State.memWrite_report (s : State) (a v : Word) : (s.memWrite a v).report = s.report := rfl

/-! ## setCC -/

@[simp] theorem State.setCC_regs (s : State) (v : Word) : (s.setCC v).regs = s.regs := rfl
@[simp] theorem State.setCC_pc (s : State) (v : Word) : (s.setCC v).pc = s.pc := rfl
@[simp] theorem State.setCC_flags (s : State) (v : Word) : (s.setCC v).flags = some (signCategory v) := rfl
@[simp] theorem State.setCC_clk (s : State) (v : Word) : (s.setCC v).clk = s.clk := rfl
@[simp] theorem State.setCC_isRunning (s : State) (v : Word) : (s.setCC v).isRunning = s.isRunning := rfl
@[simp] theorem State.setCC_tracing (s : State) (v : Word) : (s.setCC v).tracing = s.tracing := rfl
@[simp] theorem State.setCC_instr (s : State) (v : Word) : (s.setCC v).instr = s.instr := rfl
@[simp] theorem State.setCC_edgeSeen (s : State) (v : Word) : (s.setCC v).edgeSeen = s.edgeSeen := rfl
@[simp] theorem State.setCC_mem (s : State) (v : Word) : (s.setCC v).mem = s.mem := rfl
@[simp] theorem State.setCC_trace (s : State) (v : Word) : (s.setCC v).trace = (if s.tracing then s.trace ++ [.conditionUpdate (signCategory v)] else s.trace) := rfl
@[simp] theorem State.setCC_input (s : State) (v : Word) : (s.setCC v).input = s.input := rfl
@[simp] theorem State.setCC_inputClosed (s : State) (v : Word) : (s.setCC v).inputClosed = s.inputClosed := rfl
@[simp] theorem State.setCC_output (s : State) (v : Word) : (s.setCC v).output = s.output := rfl
@[simp] theorem State.setCC_outFails (s : State) (v : Word) : (s.setCC v).outFails = s.outFails := rfl
@[simp] theorem State.setCC_outputClosed (s : State) (v : Word) : (s.setCC v).outputClosed = s.outputClosed := rfl
@[simp] theorem State.setCC_hold (s : State) (v : Word) : (s.setCC v).hold = s.hold := rfl
@[simp] theorem State.setCC_report (s : State) (v : Word) : (s.setCC v).report = s.report := rfl

/-! ## raise -/

@[simp] theorem State.raise_regs (s : State) (e : ErrorKind) : (s.raise e).regs = s.regs := rfl
@[simp] theorem State.raise_pc (s : State) (e : ErrorKind) : (s.raise e).pc = s.pc := rfl
@[simp] theorem State.raise_flags (s : State) (e : ErrorKind) : (s.raise e).flags = s.flags := rfl
@[simp] theorem State.raise_clk (s : State) (e : ErrorKind) : (s.raise e).clk = s.clk := rfl
@[simp] theorem State.raise_isRunning (s : State) (e : ErrorKind) : (s.raise e).isRunning = s.isRunning := rfl
@[simp] theorem State.raise_tracing (s : State) (e : ErrorKind) : (s.raise e).tracing = s.tracing := rfl
@[simp] theorem State.raise_instr (s : State) (e : ErrorKind) : (s.raise e).instr = s.instr := rfl
@[simp] theorem State.raise_edgeSeen (s : State) (e : ErrorKind) : (s.raise e).edgeSeen = s.edgeSeen := rfl
@[simp] theorem State.raise_mem (s : State) (e : ErrorKind) : (s.raise e).mem = s.mem := rfl
@[simp] theorem State.raise_trace (s : State) (e : ErrorKind) : (s.raise e).trace = s.trace := rfl
@[simp] theorem State.raise_input (s : State) (e : ErrorKind) : (s.raise e).input = s.input := rfl
@[simp] theorem State.raise_inputClosed (s : State) (e : ErrorKind) : (s.raise e).inputClosed = s.inputClosed := rfl
@[simp] theorem State.raise_output (s : State) (e : ErrorKind) : (s.raise e).output = s.output := rfl
@[simp] theorem State.raise_outFails (s : State) (e : ErrorKind) : (s.raise e).outFails = s.outFails := rfl
@[simp] theorem State.raise_outputClosed (s : State) (e : ErrorKind) : (s.raise e).outputClosed = s.outputClosed := rfl
@[simp] theorem State.raise_hold (s : State) (e : ErrorKind) : (s.raise e).hold = s.hold := rfl
@[simp] theorem State.raise_report (s : State) (e : ErrorKind) : (s.raise e).report = some e := rfl

/-! ## stopRunning -/

@[simp] theorem State.stopRunning_regs (s : State) : (s.stopRunning).regs = s.regs := rfl
@[simp] theorem State.stopRunning_pc (s : State) : (s.stopRunning).pc = s.pc := rfl
@[simp] theorem State.stopRunning_flags (s : State) : (s.stopRunning).flags = s.flags := rfl
@[simp] theorem State.stopRunning_clk (s : State) : (s.stopRunning).clk = s.clk := rfl
@[simp] theorem State.stopRunning_isRunning (s : State) : (s.stopRunning).isRunning = false := rfl
@[simp] theorem State.stopRunning_tracing (s : State) : (s.stopRunning).tracing = s.tracing := rfl
@[simp] theorem State.stopRunning_instr (s : State) : (s.stopRunning).instr = s.instr := rfl
@[simp] theorem State.stopRunning_edgeSeen (s : State) : (s.stopRunning).edgeSeen = s.edgeSeen := rfl
@[simp] theorem State.stopRunning_mem (s : State) : (s.stopRunning).mem = s.mem := rfl
@[simp] theorem State.stopRunning_trace (s : State) : (s.stopRunning).trace = s.trace := rfl
@[simp] theorem State.stopRunning_input (s : State) : (s.stopRunning).input = s.input := rfl
@[simp] theorem State.stopRunning_inputClosed (s : State) : (s.stopRunning).inputClosed = s.inputClosed := rfl
@[simp] theorem State.stopRunning_output (s : State) : (s.stopRunning).output = s.output := rfl
@[simp] theorem State.stopRunning_outFails (s : State) : (s.stopRunning).outFails = s.outFails := rfl
@[simp] theorem State.stopRunning_outputClosed (s : State) : (s.stopRunning).outputClosed = s.outputClosed := rfl
@[simp] theorem State.stopRunning_hold (s : State) : (s.stopRunning).hold = s.hold := rfl
@[simp] theorem State.stopRunning_report (s : State) : (s.stopRunning).report = s.report := rfl

/-! ## holdIn -/

@[simp] theorem State.holdIn_regs (s : State) (h : Held) : (s.holdIn h).regs = s.regs := rfl
@[simp] theorem State.holdIn_pc (s : State) (h : Held) : (s.holdIn h).pc = s.pc := rfl
@[simp] theorem State.holdIn_flags (s : State) (h : Held) : (s.holdIn h).flags = s.flags := rfl
@[simp] theorem State.holdIn_clk (s : State) (h : Held) : (s.holdIn h).clk = s.clk := rfl
@[simp] theorem State.holdIn_isRunning (s : State) (h : Held) : (s.holdIn h).isRunning = s.isRunning := rfl
@[simp] theorem State.holdIn_tracing (s : State) (h : Held) : (s.holdIn h).tracing = s.tracing := rfl
@[simp] theorem State.holdIn_instr (s : State) (h : Held) : (s.holdIn h).instr = s.instr := rfl
@[simp] theorem State.holdIn_edgeSeen (s : State) (h : Held) : (s.holdIn h).edgeSeen = s.edgeSeen := rfl
@[simp] theorem State.holdIn_mem (s : State) (h : Held) : (s.holdIn h).mem = s.mem := rfl
@[simp] theorem State.holdIn_trace (s : State) (h : Held) : (s.holdIn h).trace = s.trace := rfl
@[simp] theorem State.holdIn_input (s : State) (h : Held) : (s.holdIn h).input = s.input := rfl
@[simp] theorem State.holdIn_inputClosed (s : State) (h : Held) : (s.holdIn h).inputClosed = s.inputClosed := rfl
@[simp] theorem State.holdIn_output (s : State) (h : Held) : (s.holdIn h).output = s.output := rfl
@[simp] theorem State.holdIn_outFails (s : State) (h : Held) : (s.holdIn h).outFails = s.outFails := rfl
@[simp] theorem State.holdIn_outputClosed (s : State) (h : Held) : (s.holdIn h).outputClosed = s.outputClosed := rfl
@[simp] theorem State.holdIn_hold (s : State) (h : Held) : (s.holdIn h).hold = some ⟨h, false⟩ := rfl
@[simp] theorem State.holdIn_report (s : State) (h : Held) : (s.holdIn h).report = s.report := rfl

/-! ## recordFalling -/

@[simp] theorem State.recordFalling_regs (s : State) : (s.recordFalling).regs = s.regs := rfl
@[simp] theorem State.recordFalling_pc (s : State) : (s.recordFalling).pc = s.pc := rfl
@[simp] theorem State.recordFalling_flags (s : State) : (s.recordFalling).flags = s.flags := rfl
@[simp] theorem State.recordFalling_clk (s : State) : (s.recordFalling).clk = false := rfl
@[simp] theorem State.recordFalling_isRunning (s : State) : (s.recordFalling).isRunning = s.isRunning := rfl
@[simp] theorem State.recordFalling_tracing (s : State) : (s.recordFalling).tracing = s.tracing := rfl
@[simp] theorem State.recordFalling_instr (s : State) : (s.recordFalling).instr = s.instr := rfl
@[simp] theorem State.recordFalling_edgeSeen (s : State) : (s.recordFalling).edgeSeen = true := rfl
@[simp] theorem State.recordFalling_mem (s : State) : (s.recordFalling).mem = s.mem := rfl
@[simp] theorem State.recordFalling_trace (s : State) : (s.recordFalling).trace = (if s.tracing then s.trace ++ [.edgeFalling] else s.trace) := rfl
@[simp] theorem State.recordFalling_input (s : State) : (s.recordFalling).input = s.input := rfl
@[simp] theorem State.recordFalling_inputClosed (s : State) : (s.recordFalling).inputClosed = s.inputClosed := rfl
@[simp] theorem State.recordFalling_output (s : State) : (s.recordFalling).output = s.output := rfl
@[simp] theorem State.recordFalling_outFails (s : State) : (s.recordFalling).outFails = s.outFails := rfl
@[simp] theorem State.recordFalling_outputClosed (s : State) : (s.recordFalling).outputClosed = s.outputClosed := rfl
@[simp] theorem State.recordFalling_hold (s : State) : (s.recordFalling).hold = s.hold := rfl
@[simp] theorem State.recordFalling_report (s : State) : (s.recordFalling).report = s.report := rfl

/-! ## fetch -/

@[simp] theorem State.fetch_regs (s : State) : (s.fetch).regs = s.regs := rfl
@[simp] theorem State.fetch_pc (s : State) : (s.fetch).pc = s.pc := rfl
@[simp] theorem State.fetch_flags (s : State) : (s.fetch).flags = s.flags := rfl
@[simp] theorem State.fetch_clk (s : State) : (s.fetch).clk = s.clk := rfl
@[simp] theorem State.fetch_isRunning (s : State) : (s.fetch).isRunning = s.isRunning := rfl
@[simp] theorem State.fetch_tracing (s : State) : (s.fetch).tracing = s.tracing := rfl
@[simp] theorem State.fetch_instr (s : State) : (s.fetch).instr = some (s.mem.read s.pc) := rfl
@[simp] theorem State.fetch_edgeSeen (s : State) : (s.fetch).edgeSeen = s.edgeSeen := rfl
@[simp] theorem State.fetch_mem (s : State) : (s.fetch).mem = s.mem := rfl
@[simp] theorem State.fetch_trace (s : State) : (s.fetch).trace = (if s.tracing then s.trace ++ [.fetch (s.mem.read s.pc)] else s.trace) := rfl
@[simp] theorem State.fetch_input (s : State) : (s.fetch).input = s.input := rfl
@[simp] theorem State.fetch_inputClosed (s : State) : (s.fetch).inputClosed = s.inputClosed := rfl
@[simp] theorem State.fetch_output (s : State) : (s.fetch).output = s.output := rfl
@[simp] theorem State.fetch_outFails (s : State) : (s.fetch).outFails = s.outFails := rfl
@[simp] theorem State.fetch_outputClosed (s : State) : (s.fetch).outputClosed = s.outputClosed := rfl
@[simp] theorem State.fetch_hold (s : State) : (s.fetch).hold = s.hold := rfl
@[simp] theorem State.fetch_report (s : State) : (s.fetch).report = s.report := rfl

/-! ## incrementPc -/

@[simp] theorem State.incrementPc_regs (s : State) : (s.incrementPc).regs = s.regs := rfl
@[simp] theorem State.incrementPc_pc (s : State) : (s.incrementPc).pc = s.pc + 1 := rfl
@[simp] theorem State.incrementPc_flags (s : State) : (s.incrementPc).flags = s.flags := rfl
@[simp] theorem State.incrementPc_clk (s : State) : (s.incrementPc).clk = s.clk := rfl
@[simp] theorem State.incrementPc_isRunning (s : State) : (s.incrementPc).isRunning = s.isRunning := rfl
@[simp] theorem State.incrementPc_tracing (s : State) : (s.incrementPc).tracing = s.tracing := rfl
@[simp] theorem State.incrementPc_instr (s : State) : (s.incrementPc).instr = s.instr := rfl
@[simp] theorem State.incrementPc_edgeSeen (s : State) : (s.incrementPc).edgeSeen = s.edgeSeen := rfl
@[simp] theorem State.incrementPc_mem (s : State) : (s.incrementPc).mem = s.mem := rfl
@[simp] theorem State.incrementPc_trace (s : State) : (s.incrementPc).trace = s.trace := rfl
@[simp] theorem State.incrementPc_input (s : State) : (s.incrementPc).input = s.input := rfl
@[simp] theorem State.incrementPc_inputClosed (s : State) : (s.incrementPc).inputClosed = s.inputClosed := rfl
@[simp] theorem State.incrementPc_output (s : State) : (s.incrementPc).output = s.output := rfl
@[simp] theorem State.incrementPc_outFails (s : State) : (s.incrementPc).outFails = s.outFails := rfl
@[simp] theorem State.incrementPc_outputClosed (s : State) : (s.incrementPc).outputClosed = s.outputClosed := rfl
@[simp] theorem State.incrementPc_hold (s : State) : (s.incrementPc).hold = s.hold := rfl
@[simp] theorem State.incrementPc_report (s : State) : (s.incrementPc).report = s.report := rfl

/-! ## noteDecode -/

@[simp] theorem State.noteDecode_regs (s : State) (w : Word) : (s.noteDecode w).regs = s.regs := rfl
@[simp] theorem State.noteDecode_pc (s : State) (w : Word) : (s.noteDecode w).pc = s.pc := rfl
@[simp] theorem State.noteDecode_flags (s : State) (w : Word) : (s.noteDecode w).flags = s.flags := rfl
@[simp] theorem State.noteDecode_clk (s : State) (w : Word) : (s.noteDecode w).clk = s.clk := rfl
@[simp] theorem State.noteDecode_isRunning (s : State) (w : Word) : (s.noteDecode w).isRunning = s.isRunning := rfl
@[simp] theorem State.noteDecode_tracing (s : State) (w : Word) : (s.noteDecode w).tracing = s.tracing := rfl
@[simp] theorem State.noteDecode_instr (s : State) (w : Word) : (s.noteDecode w).instr = s.instr := rfl
@[simp] theorem State.noteDecode_edgeSeen (s : State) (w : Word) : (s.noteDecode w).edgeSeen = s.edgeSeen := rfl
@[simp] theorem State.noteDecode_mem (s : State) (w : Word) : (s.noteDecode w).mem = s.mem := rfl
@[simp] theorem State.noteDecode_trace (s : State) (w : Word) : (s.noteDecode w).trace = (if s.tracing then s.trace ++ [.decode w (decodeWord w).rowClass] else s.trace) := rfl
@[simp] theorem State.noteDecode_input (s : State) (w : Word) : (s.noteDecode w).input = s.input := rfl
@[simp] theorem State.noteDecode_inputClosed (s : State) (w : Word) : (s.noteDecode w).inputClosed = s.inputClosed := rfl
@[simp] theorem State.noteDecode_output (s : State) (w : Word) : (s.noteDecode w).output = s.output := rfl
@[simp] theorem State.noteDecode_outFails (s : State) (w : Word) : (s.noteDecode w).outFails = s.outFails := rfl
@[simp] theorem State.noteDecode_outputClosed (s : State) (w : Word) : (s.noteDecode w).outputClosed = s.outputClosed := rfl
@[simp] theorem State.noteDecode_hold (s : State) (w : Word) : (s.noteDecode w).hold = s.hold := rfl
@[simp] theorem State.noteDecode_report (s : State) (w : Word) : (s.noteDecode w).report = s.report := rfl

/-! ## beginCall -/

@[simp] theorem State.beginCall_regs (s : State) : (s.beginCall).regs = s.regs := rfl
@[simp] theorem State.beginCall_pc (s : State) : (s.beginCall).pc = s.pc := rfl
@[simp] theorem State.beginCall_flags (s : State) : (s.beginCall).flags = s.flags := rfl
@[simp] theorem State.beginCall_clk (s : State) : (s.beginCall).clk = s.clk := rfl
@[simp] theorem State.beginCall_isRunning (s : State) : (s.beginCall).isRunning = s.isRunning := rfl
@[simp] theorem State.beginCall_tracing (s : State) : (s.beginCall).tracing = s.tracing := rfl
@[simp] theorem State.beginCall_instr (s : State) : (s.beginCall).instr = s.instr := rfl
@[simp] theorem State.beginCall_edgeSeen (s : State) : (s.beginCall).edgeSeen = s.edgeSeen := rfl
@[simp] theorem State.beginCall_mem (s : State) : (s.beginCall).mem = s.mem := rfl
@[simp] theorem State.beginCall_trace (s : State) : (s.beginCall).trace = s.trace := rfl
@[simp] theorem State.beginCall_input (s : State) : (s.beginCall).input = s.input := rfl
@[simp] theorem State.beginCall_inputClosed (s : State) : (s.beginCall).inputClosed = s.inputClosed := rfl
@[simp] theorem State.beginCall_output (s : State) : (s.beginCall).output = s.output := rfl
@[simp] theorem State.beginCall_outFails (s : State) : (s.beginCall).outFails = s.outFails := rfl
@[simp] theorem State.beginCall_outputClosed (s : State) : (s.beginCall).outputClosed = s.outputClosed := rfl
@[simp] theorem State.beginCall_hold (s : State) : (s.beginCall).hold = s.hold := rfl
@[simp] theorem State.beginCall_report (s : State) : (s.beginCall).report = none := rfl

/-! ## takeInput -/

@[simp] theorem State.takeInput_regs (s : State) : (s.takeInput).regs = s.regs := rfl
@[simp] theorem State.takeInput_pc (s : State) : (s.takeInput).pc = s.pc := rfl
@[simp] theorem State.takeInput_flags (s : State) : (s.takeInput).flags = s.flags := rfl
@[simp] theorem State.takeInput_clk (s : State) : (s.takeInput).clk = s.clk := rfl
@[simp] theorem State.takeInput_isRunning (s : State) : (s.takeInput).isRunning = s.isRunning := rfl
@[simp] theorem State.takeInput_tracing (s : State) : (s.takeInput).tracing = s.tracing := rfl
@[simp] theorem State.takeInput_instr (s : State) : (s.takeInput).instr = s.instr := rfl
@[simp] theorem State.takeInput_edgeSeen (s : State) : (s.takeInput).edgeSeen = s.edgeSeen := rfl
@[simp] theorem State.takeInput_mem (s : State) : (s.takeInput).mem = s.mem := rfl
@[simp] theorem State.takeInput_trace (s : State) : (s.takeInput).trace = s.trace := rfl
@[simp] theorem State.takeInput_input (s : State) : (s.takeInput).input = s.input.tail := rfl
@[simp] theorem State.takeInput_inputClosed (s : State) : (s.takeInput).inputClosed = s.inputClosed := rfl
@[simp] theorem State.takeInput_output (s : State) : (s.takeInput).output = s.output := rfl
@[simp] theorem State.takeInput_outFails (s : State) : (s.takeInput).outFails = s.outFails := rfl
@[simp] theorem State.takeInput_outputClosed (s : State) : (s.takeInput).outputClosed = s.outputClosed := rfl
@[simp] theorem State.takeInput_hold (s : State) : (s.takeInput).hold = s.hold := rfl
@[simp] theorem State.takeInput_report (s : State) : (s.takeInput).report = s.report := rfl

/-! ## takeVerdict -/

@[simp] theorem State.takeVerdict_regs (s : State) : (s.takeVerdict).regs = s.regs := rfl
@[simp] theorem State.takeVerdict_pc (s : State) : (s.takeVerdict).pc = s.pc := rfl
@[simp] theorem State.takeVerdict_flags (s : State) : (s.takeVerdict).flags = s.flags := rfl
@[simp] theorem State.takeVerdict_clk (s : State) : (s.takeVerdict).clk = s.clk := rfl
@[simp] theorem State.takeVerdict_isRunning (s : State) : (s.takeVerdict).isRunning = s.isRunning := rfl
@[simp] theorem State.takeVerdict_tracing (s : State) : (s.takeVerdict).tracing = s.tracing := rfl
@[simp] theorem State.takeVerdict_instr (s : State) : (s.takeVerdict).instr = s.instr := rfl
@[simp] theorem State.takeVerdict_edgeSeen (s : State) : (s.takeVerdict).edgeSeen = s.edgeSeen := rfl
@[simp] theorem State.takeVerdict_mem (s : State) : (s.takeVerdict).mem = s.mem := rfl
@[simp] theorem State.takeVerdict_trace (s : State) : (s.takeVerdict).trace = s.trace := rfl
@[simp] theorem State.takeVerdict_input (s : State) : (s.takeVerdict).input = s.input := rfl
@[simp] theorem State.takeVerdict_inputClosed (s : State) : (s.takeVerdict).inputClosed = s.inputClosed := rfl
@[simp] theorem State.takeVerdict_output (s : State) : (s.takeVerdict).output = s.output := rfl
@[simp] theorem State.takeVerdict_outFails (s : State) : (s.takeVerdict).outFails = s.outFails.tail := rfl
@[simp] theorem State.takeVerdict_outputClosed (s : State) : (s.takeVerdict).outputClosed = s.outputClosed := rfl
@[simp] theorem State.takeVerdict_hold (s : State) : (s.takeVerdict).hold = s.hold := rfl
@[simp] theorem State.takeVerdict_report (s : State) : (s.takeVerdict).report = s.report := rfl

/-! ## appendOutput -/

@[simp] theorem State.appendOutput_regs (s : State) (b : Byte) : (s.appendOutput b).regs = s.regs := rfl
@[simp] theorem State.appendOutput_pc (s : State) (b : Byte) : (s.appendOutput b).pc = s.pc := rfl
@[simp] theorem State.appendOutput_flags (s : State) (b : Byte) : (s.appendOutput b).flags = s.flags := rfl
@[simp] theorem State.appendOutput_clk (s : State) (b : Byte) : (s.appendOutput b).clk = s.clk := rfl
@[simp] theorem State.appendOutput_isRunning (s : State) (b : Byte) : (s.appendOutput b).isRunning = s.isRunning := rfl
@[simp] theorem State.appendOutput_tracing (s : State) (b : Byte) : (s.appendOutput b).tracing = s.tracing := rfl
@[simp] theorem State.appendOutput_instr (s : State) (b : Byte) : (s.appendOutput b).instr = s.instr := rfl
@[simp] theorem State.appendOutput_edgeSeen (s : State) (b : Byte) : (s.appendOutput b).edgeSeen = s.edgeSeen := rfl
@[simp] theorem State.appendOutput_mem (s : State) (b : Byte) : (s.appendOutput b).mem = s.mem := rfl
@[simp] theorem State.appendOutput_trace (s : State) (b : Byte) : (s.appendOutput b).trace = s.trace := rfl
@[simp] theorem State.appendOutput_input (s : State) (b : Byte) : (s.appendOutput b).input = s.input := rfl
@[simp] theorem State.appendOutput_inputClosed (s : State) (b : Byte) : (s.appendOutput b).inputClosed = s.inputClosed := rfl
@[simp] theorem State.appendOutput_output (s : State) (b : Byte) : (s.appendOutput b).output = s.output ++ [b] := rfl
@[simp] theorem State.appendOutput_outFails (s : State) (b : Byte) : (s.appendOutput b).outFails = s.outFails := rfl
@[simp] theorem State.appendOutput_outputClosed (s : State) (b : Byte) : (s.appendOutput b).outputClosed = s.outputClosed := rfl
@[simp] theorem State.appendOutput_hold (s : State) (b : Byte) : (s.appendOutput b).hold = s.hold := rfl
@[simp] theorem State.appendOutput_report (s : State) (b : Byte) : (s.appendOutput b).report = s.report := rfl

/-! ## raiseClock: an edge or nothing -/

@[simp] theorem State.raiseClock_regs (s : State) : s.raiseClock.regs = s.regs := by
  unfold State.raiseClock; split <;> rfl
@[simp] theorem State.raiseClock_pc (s : State) : s.raiseClock.pc = s.pc := by
  unfold State.raiseClock; split <;> rfl
@[simp] theorem State.raiseClock_flags (s : State) : s.raiseClock.flags = s.flags := by
  unfold State.raiseClock; split <;> rfl
@[simp] theorem State.raiseClock_clk (s : State) : s.raiseClock.clk = true := by
  unfold State.raiseClock; split <;> simp_all
@[simp] theorem State.raiseClock_isRunning (s : State) : s.raiseClock.isRunning = s.isRunning := by
  unfold State.raiseClock; split <;> rfl
@[simp] theorem State.raiseClock_tracing (s : State) : s.raiseClock.tracing = s.tracing := by
  unfold State.raiseClock; split <;> rfl
@[simp] theorem State.raiseClock_instr (s : State) : s.raiseClock.instr = s.instr := by
  unfold State.raiseClock; split <;> rfl
@[simp] theorem State.raiseClock_edgeSeen (s : State) : s.raiseClock.edgeSeen = (if s.clk then s.edgeSeen else true) := by
  unfold State.raiseClock; split <;> rfl
@[simp] theorem State.raiseClock_mem (s : State) : s.raiseClock.mem = s.mem := by
  unfold State.raiseClock; split <;> rfl
@[simp] theorem State.raiseClock_trace (s : State) : s.raiseClock.trace = (if s.clk then s.trace else if s.tracing then s.trace ++ [.edgeRising] else s.trace) := by
  unfold State.raiseClock; split <;> rfl
@[simp] theorem State.raiseClock_input (s : State) : s.raiseClock.input = s.input := by
  unfold State.raiseClock; split <;> rfl
@[simp] theorem State.raiseClock_inputClosed (s : State) : s.raiseClock.inputClosed = s.inputClosed := by
  unfold State.raiseClock; split <;> rfl
@[simp] theorem State.raiseClock_output (s : State) : s.raiseClock.output = s.output := by
  unfold State.raiseClock; split <;> rfl
@[simp] theorem State.raiseClock_outFails (s : State) : s.raiseClock.outFails = s.outFails := by
  unfold State.raiseClock; split <;> rfl
@[simp] theorem State.raiseClock_outputClosed (s : State) : s.raiseClock.outputClosed = s.outputClosed := by
  unfold State.raiseClock; split <;> rfl
@[simp] theorem State.raiseClock_hold (s : State) : s.raiseClock.hold = s.hold := by
  unfold State.raiseClock; split <;> rfl
@[simp] theorem State.raiseClock_report (s : State) : s.raiseClock.report = s.report := by
  unfold State.raiseClock; split <;> rfl

/-! ## Registers -/

@[simp] theorem State.reg_setReg_same (s : State) (r : Reg) (v : Word) : (s.setReg r v).reg r = v := by
  simp [State.reg, State.setReg]

theorem State.reg_setReg_other (s : State) (r d : Reg) (v : Word) (h : r ≠ d) : (s.setReg d v).reg r = s.reg r := by
  have : (d : Nat) ≠ (r : Nat) := fun e => h (Fin.ext e.symm)
  simp [State.reg, State.setReg, this]

@[simp] theorem State.reg_writeReg_same (s : State) (r : Reg) (v : Word) : (s.writeReg r v).reg r = v :=
  s.reg_setReg_same r v

theorem State.reg_writeReg_other (s : State) (r d : Reg) (v : Word) (h : r ≠ d) : (s.writeReg d v).reg r = s.reg r :=
  s.reg_setReg_other r d v h

@[simp] theorem State.reg_emit (s : State) (e : Event) (r : Reg) : (s.emit e).reg r = s.reg r := rfl
@[simp] theorem State.reg_writePc (s : State) (v : Word) (r : Reg) : (s.writePc v).reg r = s.reg r := rfl
@[simp] theorem State.reg_memWrite (s : State) (a v : Word) (r : Reg) : (s.memWrite a v).reg r = s.reg r := rfl
@[simp] theorem State.reg_setCC (s : State) (v : Word) (r : Reg) : (s.setCC v).reg r = s.reg r := rfl
@[simp] theorem State.reg_raise (s : State) (e : ErrorKind) (r : Reg) : (s.raise e).reg r = s.reg r := rfl
@[simp] theorem State.reg_stopRunning (s : State) (r : Reg) : (s.stopRunning).reg r = s.reg r := rfl
@[simp] theorem State.reg_holdIn (s : State) (h : Held) (r : Reg) : (s.holdIn h).reg r = s.reg r := rfl
@[simp] theorem State.reg_recordFalling (s : State) (r : Reg) : (s.recordFalling).reg r = s.reg r := rfl
@[simp] theorem State.reg_fetch (s : State) (r : Reg) : (s.fetch).reg r = s.reg r := rfl
@[simp] theorem State.reg_incrementPc (s : State) (r : Reg) : (s.incrementPc).reg r = s.reg r := rfl
@[simp] theorem State.reg_noteDecode (s : State) (w : Word) (r : Reg) : (s.noteDecode w).reg r = s.reg r := rfl
@[simp] theorem State.reg_beginCall (s : State) (r : Reg) : (s.beginCall).reg r = s.reg r := rfl
@[simp] theorem State.reg_takeInput (s : State) (r : Reg) : (s.takeInput).reg r = s.reg r := rfl
@[simp] theorem State.reg_takeVerdict (s : State) (r : Reg) : (s.takeVerdict).reg r = s.reg r := rfl
@[simp] theorem State.reg_appendOutput (s : State) (b : Byte) (r : Reg) : (s.appendOutput b).reg r = s.reg r := rfl
@[simp] theorem State.reg_raiseClock (s : State) (r : Reg) : s.raiseClock.reg r = s.reg r := by
  simp [State.reg]

/-- A state whose registers are another's reads the same registers. -/
theorem State.reg_congr {s t : State} (h : t.regs = s.regs) (r : Reg) : t.reg r = s.reg r := by
  simp [State.reg, h]

end Sys2Proof.Machine
end

