-- ==== Sys2Proof/Laws/Ops.lean ====
section
/-! SUPPORT. What every shared operation and every instruction can do, once: the frame that all of them keep, and the
ends of the stream calls. Later proofs cite these instead of unfolding an operation. -/

namespace Sys2Proof.Machine

/-! ## The trace -/

theorem Traced.nil {s t : State} (h : t.trace = s.trace) : Traced [] s t := by
  simp [Traced, h]

theorem Traced.trans {s t u : State} {e f : List Event} (h : Traced e s t) (ht : t.tracing = s.tracing)
    (g : Traced f t u) : Traced (e ++ f) s u := by
  unfold Traced at *
  rw [g, h, ht]
  split <;> simp

theorem Traced.emit (s : State) (e : Event) : Traced [e] s (s.emit e) := by
  unfold Traced State.emit
  split <;> simp

/-! ## The frame of every execute step -/

/-- What holds after every execute step, whichever the instruction (R40): the clock and the latch are untouched,
`is_running` is never set, memory stays canonical, the trace and the output only grow, the streams' queues only shrink
from the head, and flags once set stay set. -/
structure ExecFrame (s t : State) : Prop where
  clock : KeepsClock s t
  running : t.isRunning = true → s.isRunning = true
  memory : s.mem.wf = true → t.mem.wf = true
  trace : ∃ evs, Traced evs s t
  output : ∃ bs, t.output = s.output ++ bs
  input : t.input <:+ s.input
  outFails : t.outFails <:+ s.outFails
  closed : t.inputClosed = s.inputClosed ∧ t.outputClosed = s.outputClosed
  flags : s.flags ≠ none → t.flags ≠ none

theorem ExecFrame.refl (s : State) : ExecFrame s s :=
  ⟨⟨rfl, rfl, rfl, rfl⟩, id, id, ⟨[], .nil rfl⟩, ⟨[], by simp⟩, List.suffix_refl _, List.suffix_refl _, ⟨rfl, rfl⟩, id⟩

theorem ExecFrame.trans {s t u : State} (h : ExecFrame s t) (g : ExecFrame t u) : ExecFrame s u where
  clock := ⟨g.clock.1.trans h.clock.1, g.clock.2.1.trans h.clock.2.1, g.clock.2.2.1.trans h.clock.2.2.1,
    g.clock.2.2.2.trans h.clock.2.2.2⟩
  running := fun x => h.running (g.running x)
  memory := fun x => g.memory (h.memory x)
  trace := by
    obtain ⟨e, he⟩ := h.trace
    obtain ⟨f, hf⟩ := g.trace
    exact ⟨e ++ f, he.trans h.clock.2.1 hf⟩
  output := by
    obtain ⟨b, hb⟩ := h.output
    obtain ⟨c, hc⟩ := g.output
    exact ⟨b ++ c, by simp [hc, hb]⟩
  input := g.input.trans h.input
  outFails := g.outFails.trans h.outFails
  closed := ⟨g.closed.1.trans h.closed.1, g.closed.2.trans h.closed.2⟩
  flags := fun x => g.flags (h.flags x)

/-- An update of registers, PC, `hold` or `report` keeps the frame. -/
theorem ExecFrame.of_update {s : State} {regs : Vector Word 8} {pc : Word} {hold : Option Hold}
    {report : Option ErrorKind} :
    ExecFrame s { s with regs := regs, pc := pc, hold := hold, report := report } := { ExecFrame.refl s with }

theorem ExecFrame.emit (s : State) (e : Event) : ExecFrame s (s.emit e) :=
  { ExecFrame.refl s with trace := ⟨[e], .emit s e⟩ }

theorem ExecFrame.writeReg (s : State) (r : Reg) (v : Word) : ExecFrame s (s.writeReg r v) :=
  .trans (t := s.setReg r v) { ExecFrame.refl s with } (.emit _ _)

theorem ExecFrame.writePc (s : State) (v : Word) : ExecFrame s (s.writePc v) :=
  .trans (t := { s with pc := v }) { ExecFrame.refl s with } (.emit _ _)

theorem ExecFrame.memWrite (s : State) (a v : Word) : ExecFrame s (s.memWrite a v) :=
  .trans (t := { s with mem := s.mem.write a v }) { ExecFrame.refl s with memory := s.mem.wf_write a v } (.emit _ _)

theorem ExecFrame.setCC (s : State) (v : Word) : ExecFrame s (s.setCC v) :=
  .trans (t := { s with flags := some (signCategory v) }) { ExecFrame.refl s with flags := fun _ => by simp } (.emit _ _)

theorem ExecFrame.writeResult (s : State) (r : Reg) (v : Word) : ExecFrame s (s.writeResult r v) :=
  (ExecFrame.writeReg s r v).trans (.setCC _ v)

theorem ExecFrame.raise (s : State) (e : ErrorKind) : ExecFrame s (s.raise e) := { ExecFrame.refl s with }

theorem ExecFrame.holdIn (s : State) (h : Held) : ExecFrame s (s.holdIn h) := { ExecFrame.refl s with }

theorem ExecFrame.stopRunning (s : State) : ExecFrame s s.stopRunning :=
  { ExecFrame.refl s with running := fun h => by simp at h }

theorem ExecFrame.takeInput (s : State) : ExecFrame s s.takeInput :=
  { ExecFrame.refl s with input := List.tail_suffix _ }

theorem ExecFrame.takeVerdict (s : State) : ExecFrame s s.takeVerdict :=
  { ExecFrame.refl s with outFails := List.tail_suffix _ }

theorem ExecFrame.appendOutput (s : State) (b : Byte) : ExecFrame s (s.appendOutput b) :=
  { ExecFrame.refl s with output := ⟨[b], rfl⟩ }

/-! ## The streams -/

/-- The ends of an input call: a character from the head, a failure, or a wait that changes nothing (R160). -/
theorem inRead_cases (s : State) :
    (∃ c rest, s.input = .char c :: rest ∧ inRead s = .char c s.takeInput) ∨
    (∃ rest, s.input = .fail :: rest ∧ inRead s = .fails s.takeInput) ∨
    (s.input = [] ∧ s.inputClosed = true ∧ inRead s = .fails s) ∨
    (s.input = [] ∧ s.inputClosed = false ∧ inRead s = .waits s) := by
  unfold inRead
  split
  · exact .inl ⟨_, _, ‹_›, rfl⟩
  · exact .inr (.inl ⟨_, ‹_›, rfl⟩)
  · cases h : s.inputClosed
    · exact .inr (.inr (.inr ⟨‹_›, rfl, rfl⟩))
    · exact .inr (.inr (.inl ⟨‹_›, rfl, rfl⟩))

theorem State.takeVerdict_of_nil {s : State} (h : s.outFails = []) : s.takeVerdict = s := by
  cases s
  simp_all [State.takeVerdict]

/-- The ends of an output call: the character is appended, or the call fails; either way one verdict is used (R161,
R162). -/
theorem outWrite_cases (b : Byte) (s : State) :
    (s.outputAccepts 1 ∧ outWrite b s = .done (s.takeVerdict.appendOutput b)) ∨
    (s.outputFailing ∧ outWrite b s = .fails s.takeVerdict) := by
  unfold outWrite State.outputFailing State.outputFailsAfter State.outputAccepts
  split
  · exact .inr (by simp [*])
  · exact .inl (by simp [*])
  · rw [State.takeVerdict_of_nil ‹_›]
    cases hc : s.outputClosed <;> simp [*]

/-- The end of a sequence of output calls: all characters are appended, or some call fails; only the output stream has
changed. -/
theorem outWriteAll_frame (bs : List Byte) (s : State) :
    (∃ t, outWriteAll bs s = .done t ∧ ExecFrame s t ∧
      t = { s with outFails := t.outFails, output := s.output ++ bs }) ∨
    (∃ t, outWriteAll bs s = .fails t ∧ ExecFrame s t ∧
      t = { s with outFails := t.outFails, output := t.output }) := by
  induction bs generalizing s with
  | nil => exact .inl ⟨s, rfl, .refl s, by simp⟩
  | cons b rest ih =>
    rcases outWrite_cases b s with ⟨-, hw⟩ | ⟨-, hw⟩
    · simp only [outWriteAll, hw]
      have frame : ExecFrame s (s.takeVerdict.appendOutput b) := (ExecFrame.takeVerdict s).trans (.appendOutput _ b)
      rcases ih (s.takeVerdict.appendOutput b) with ⟨t, h, hf, ht⟩ | ⟨t, h, hf, ht⟩
      · exact .inl ⟨t, h, frame.trans hf, by rw [ht]; simp [State.takeVerdict, State.appendOutput]⟩
      · exact .inr ⟨t, h, frame.trans hf, by rw [ht]; simp [State.takeVerdict, State.appendOutput]⟩
    · exact .inr ⟨_, by simp [outWriteAll, hw], .takeVerdict s, rfl⟩

/-! ## The whole effect of the shared writes -/

/-- `x[dr] <- v; SetCC(v)` (R25, R110). -/
theorem writeResult_spec (s : State) (dr : Reg) (v : Word) : WritesResult dr v s (s.writeResult dr v) where
  result := by simp [State.writeResult]
  flags := by simp [State.writeResult]
  regs := fun r hr => by simp [State.writeResult, State.reg_writeReg_other _ _ _ _ hr]
  pc := rfl
  memory := fun _ => rfl
  streams := ⟨⟨rfl, rfl⟩, rfl, rfl, rfl⟩
  clock := ⟨rfl, rfl, rfl, rfl⟩
  running := rfl
  call := ⟨rfl, rfl⟩
  trace := (Traced.emit (s.setReg dr v) _).trans (t := s.writeReg dr v) rfl
    (Traced.emit ({ s.writeReg dr v with flags := some (signCategory v) } : State) _)

/-- A store (R52). -/
theorem memWrite_spec (s : State) (ea v : Word) : StoresWord ea v s (s.memWrite ea v) where
  stored := by simp
  memory := fun a h => by simp [Memory.read_write_other _ _ _ _ h]
  regs := fun _ => rfl
  flags := rfl
  pc := rfl
  streams := ⟨⟨rfl, rfl⟩, rfl, rfl, rfl⟩
  clock := ⟨rfl, rfl, rfl, rfl⟩
  running := rfl
  call := ⟨rfl, rfl⟩
  trace := Traced.emit ({ s with mem := s.mem.write ea v } : State) _

/-- A write of the PC in the execute step (R23). -/
theorem writePc_spec (s : State) (v : Word) : TransfersTo v [.registerWrite .pc v] s (s.writePc v) where
  pc := rfl
  flags := rfl
  memory := fun _ => rfl
  streams := ⟨⟨rfl, rfl⟩, rfl, rfl, rfl⟩
  clock := ⟨rfl, rfl, rfl, rfl⟩
  running := rfl
  call := ⟨rfl, rfl⟩
  trace := Traced.emit ({ s with pc := v } : State) _

/-- The link, then the PC (R143, R144). -/
theorem linkPc_spec (s : State) (v : Word) :
    TransfersTo v [.registerWrite (.gpr 7) s.pc, .registerWrite .pc v] s (s.link.writePc v) where
  pc := rfl
  flags := rfl
  memory := fun _ => rfl
  streams := ⟨⟨rfl, rfl⟩, rfl, rfl, rfl⟩
  clock := ⟨rfl, rfl, rfl, rfl⟩
  running := rfl
  call := ⟨rfl, rfl⟩
  trace := (Traced.emit (s.setReg 7 s.pc) _).trans (t := s.link) rfl (Traced.emit ({ s.link with pc := v } : State) _)

/-! ## The services -/

/-- What holds after every TRAP service and every faulting opcode (R150, R157): memory, flags and PC are untouched and
so is every register but R0. -/
structure ServiceFrame (s t : State) : Prop where
  frame : ExecFrame s t
  mem : t.mem = s.mem
  flags : t.flags = s.flags
  pc : t.pc = s.pc
  regs : KeepsRegsBut 0 s t

theorem ServiceFrame.refl (s : State) : ServiceFrame s s := ⟨.refl s, rfl, rfl, rfl, fun _ _ => rfl⟩

theorem ServiceFrame.trans {s t u : State} (h : ServiceFrame s t) (g : ServiceFrame t u) : ServiceFrame s u :=
  ⟨h.frame.trans g.frame, g.mem.trans h.mem, g.flags.trans h.flags, g.pc.trans h.pc,
    fun r hr => (g.regs r hr).trans (h.regs r hr)⟩

theorem ServiceFrame.keepsMachine {s t : State} (h : ServiceFrame s t) : KeepsMachine s t :=
  ⟨h.regs, h.flags, h.pc, fun a => by rw [h.mem], h.frame.clock⟩

theorem ServiceFrame.raise (s : State) (e : ErrorKind) : ServiceFrame s (s.raise e) :=
  ⟨.raise s e, rfl, rfl, rfl, fun _ _ => rfl⟩

theorem ServiceFrame.holdIn (s : State) (h : Held) : ServiceFrame s (s.holdIn h) :=
  ⟨.holdIn s h, rfl, rfl, rfl, fun _ _ => rfl⟩

theorem ServiceFrame.writeR0 (s : State) (v : Word) : ServiceFrame s (s.writeReg 0 v) :=
  ⟨.writeReg s 0 v, rfl, rfl, rfl, fun r hr => s.reg_writeReg_other r 0 v hr⟩

theorem ServiceFrame.takeInput (s : State) : ServiceFrame s s.takeInput :=
  ⟨.takeInput s, rfl, rfl, rfl, fun _ _ => rfl⟩

theorem ServiceFrame.takeVerdict (s : State) : ServiceFrame s s.takeVerdict :=
  ⟨.takeVerdict s, rfl, rfl, rfl, fun _ _ => rfl⟩

theorem ServiceFrame.appendOutput (s : State) (b : Byte) : ServiceFrame s (s.appendOutput b) :=
  ⟨.appendOutput s b, rfl, rfl, rfl, fun _ _ => rfl⟩

/-- An input call and what follows it. -/
theorem ServiceFrame.inRead (s : State) (h : Held) (go : Byte → State → State)
    (hgo : ∀ c t, ServiceFrame t (go c t)) : ServiceFrame s ((inRead s).andThen h go) := by
  rcases inRead_cases s with ⟨c, rest, -, hr⟩ | ⟨rest, -, hr⟩ | ⟨-, -, hr⟩ | ⟨-, -, hr⟩ <;>
    simp only [hr, InResult.andThen]
  · exact (ServiceFrame.takeInput s).trans (hgo _ _)
  · exact (ServiceFrame.takeInput s).trans (.raise _ _)
  · exact .raise _ _
  · exact .holdIn _ _

/-- An output call and what follows it. -/
theorem ServiceFrame.outWrite (s : State) (b : Byte) (go : State → State) (hgo : ∀ t, ServiceFrame t (go t)) :
    ServiceFrame s ((outWrite b s).andThen go) := by
  rcases outWrite_cases b s with ⟨-, hw⟩ | ⟨-, hw⟩ <;> simp only [hw, OutResult.andThen]
  · exact ((ServiceFrame.takeVerdict s).trans (.appendOutput _ b)).trans (hgo _)
  · exact (ServiceFrame.takeVerdict s).trans (.raise _ _)

theorem ServiceFrame.getc (s : State) : ServiceFrame s s.getc := .inRead s _ _ fun c t => .writeR0 t (zext c)

theorem ServiceFrame.out (s : State) : ServiceFrame s s.out := .outWrite s _ _ .refl

theorem ServiceFrame.putsLoop (fuel : Nat) (a : Word) (s : State) : ServiceFrame s (putsLoop fuel a s) := by
  induction fuel generalizing a s with
  | zero => exact .holdIn s _
  | succ n ih =>
    unfold Machine.putsLoop
    split
    · exact .refl s
    · exact .outWrite s _ _ (ih (a + 1))

theorem ServiceFrame.puts (s : State) : ServiceFrame s s.puts := .putsLoop _ _ s

theorem ServiceFrame.inAfterPrompt (s : State) : ServiceFrame s s.inAfterPrompt :=
  .inRead s _ _ fun c t => .outWrite t c _ fun u => .writeR0 u (zext c)

theorem ServiceFrame.inWith (prompt : List Byte) (s : State) : ServiceFrame s (s.inWith prompt) := by
  unfold State.inWith
  rcases outWriteAll_frame prompt s with ⟨t, h, hf, ht⟩ | ⟨t, h, hf, ht⟩ <;> simp only [h, OutResult.andThen]
  · exact ServiceFrame.trans (t := t) ⟨hf, by rw [ht], by rw [ht], by rw [ht], fun r _ => by rw [ht]; rfl⟩ (.inAfterPrompt t)
  · exact ServiceFrame.trans (t := t) ⟨hf, by rw [ht], by rw [ht], by rw [ht], fun r _ => by rw [ht]; rfl⟩ (.raise t _)

theorem ServiceFrame.halt (s : State) : ServiceFrame s s.halt :=
  ⟨(ExecFrame.emit s _).trans (.stopRunning _), rfl, rfl, rfl, fun _ _ => rfl⟩

theorem ServiceFrame.illegalOpcode (s : State) : ServiceFrame s s.illegalOpcode :=
  ⟨(ExecFrame.stopRunning s).trans (.raise _ _), rfl, rfl, rfl, fun _ _ => rfl⟩

theorem ServiceFrame.trap (v : BitVec 8) (s : State) : ServiceFrame s (s.trap v) := by
  unfold State.trap
  repeat' split
  · exact .getc s
  · exact .out s
  · exact .puts s
  · exact .inWith _ s
  · exact .halt s
  · exact .raise s _

theorem ServiceFrame.continueService (h : Held) (s : State) : ServiceFrame s (s.continueService h) := by
  cases h
  · exact .getc s
  · exact .inAfterPrompt s
  · exact .puts s

/-! ## Every instruction -/

theorem ExecFrame.branch (n z p : Bool) (off : BitVec 9) (s : State) : ExecFrame s (s.branch n z p off) := by
  unfold State.branch
  split
  · exact .writePc s _
  · exact .refl s

/-- The one inversion lemma of step 3: every instruction, in every state, answers a next state, and it keeps the common
frame. -/
theorem exec_next (i : Instr) (s : State) : ∃ t, exec i s = .next t ∧ ExecFrame s t := by
  cases i with
  | addReg | addImm | andReg | andImm | notReg | ld | ldi | ldr | lea => exact ⟨_, rfl, .writeResult s _ _⟩
  | st | sti | str => exact ⟨_, rfl, .memWrite s _ _⟩
  | br | nop => exact ⟨_, rfl, .branch _ _ _ _ s⟩
  | jmp | ret => exact ⟨_, rfl, .writePc s _⟩
  | jsr | jsrr => exact ⟨_, rfl, (ExecFrame.writeReg s _ _).trans (.writePc _ _)⟩
  | trap v => exact ⟨_, rfl, (ServiceFrame.trap v s).frame⟩
  | getc => exact ⟨_, rfl, (ServiceFrame.getc s).frame⟩
  | out => exact ⟨_, rfl, (ServiceFrame.out s).frame⟩
  | puts => exact ⟨_, rfl, (ServiceFrame.puts s).frame⟩
  | in_ => exact ⟨_, rfl, (ServiceFrame.inWith _ s).frame⟩
  | halt => exact ⟨_, rfl, (ServiceFrame.halt s).frame⟩
  | reserved1101 | unlisted1000 => exact ⟨_, rfl, (ServiceFrame.illegalOpcode s).frame⟩

theorem exec_frame {i : Instr} {s t : State} (h : exec i s = .next t) : ExecFrame s t := by
  obtain ⟨u, hu, hf⟩ := exec_next i s
  rw [h] at hu
  cases hu
  exact hf

/-! ## What a character service does to the run (R162): `is_running` stays, and only `IoError` can be reported -/

/-- What every call of a character service leaves: `is_running` unchanged, and `report` unchanged or `IoError`. -/
def IoFrame (s t : State) : Prop := t.isRunning = s.isRunning ∧ (t.report = s.report ∨ t.report = some .ioError)

theorem IoFrame.outWrite {s : State} (b : Byte) (go : State → State) (hgo : ∀ t, IoFrame t (go t)) :
    IoFrame s ((outWrite b s).andThen go) := by
  rcases outWrite_cases b s with ⟨-, hw⟩ | ⟨-, hw⟩ <;> rw [hw]
  · exact hgo (s.takeVerdict.appendOutput b)
  · exact ⟨rfl, .inr rfl⟩

theorem IoFrame.inRead {s : State} (h : Held) (go : Byte → State → State) (hgo : ∀ c t, IoFrame t (go c t)) :
    IoFrame s ((inRead s).andThen h go) := by
  rcases inRead_cases s with ⟨c, rest, -, hr⟩ | ⟨rest, -, hr⟩ | ⟨-, -, hr⟩ | ⟨-, -, hr⟩ <;> rw [hr]
  · exact hgo c s.takeInput
  · exact ⟨rfl, .inr rfl⟩
  · exact ⟨rfl, .inr rfl⟩
  · exact ⟨rfl, .inl rfl⟩

theorem IoFrame.getc (s : State) : IoFrame s s.getc := .inRead _ _ fun _ _ => ⟨rfl, .inl rfl⟩

theorem IoFrame.out (s : State) : IoFrame s s.out := .outWrite _ _ fun _ => ⟨rfl, .inl rfl⟩

theorem IoFrame.putsLoop (fuel : Nat) (a : Word) (s : State) : IoFrame s (putsLoop fuel a s) := by
  induction fuel generalizing a s with
  | zero => exact ⟨rfl, .inl rfl⟩
  | succ n ih =>
    unfold Machine.putsLoop
    split
    · exact ⟨rfl, .inl rfl⟩
    · exact .outWrite _ _ fun t => ih (a + 1) t

theorem IoFrame.puts (s : State) : IoFrame s s.puts := .putsLoop _ _ s

theorem IoFrame.inAfterPrompt (s : State) : IoFrame s s.inAfterPrompt :=
  .inRead _ _ fun _ _ => .outWrite _ _ fun _ => ⟨rfl, .inl rfl⟩

theorem IoFrame.inWith (prompt : List Byte) (s : State) : IoFrame s (s.inWith prompt) := by
  unfold State.inWith
  rcases outWriteAll_frame prompt s with ⟨t, ht, -, e⟩ | ⟨t, ht, -, e⟩ <;> rw [ht]
  · have := IoFrame.inAfterPrompt t
    rw [IoFrame, show t.isRunning = s.isRunning by rw [e], show t.report = s.report by rw [e]] at this
    exact this
  · exact ⟨by rw [e]; rfl, .inr rfl⟩

theorem IoFrame.continueService (h : Held) (s : State) : IoFrame s (s.continueService h) := by
  cases h
  · exact .getc s
  · exact .inAfterPrompt s
  · exact .puts s

end Sys2Proof.Machine
end

