-- ==== Sys2Proof/Laws/PerInstr.lean ====
section
/-! SUPPORT. The family of statements made per instruction: a well-formed instruction is what the decoder reads from
its word (R82 to R97), one lemma per constructor. -/

namespace Sys2Proof.Laws.RoundTrip

/-- The instruction is read back from its own word. -/
def Statement (i : Instr) : Prop := i.wf = true → decodeWord (encode i) = i

theorem addReg (dr sr1 sr2 : Reg) : Statement (.addReg dr sr1 sr2) := fun _ => by
  obtain ⟨h, h1, h2, h3, h4⟩ := fmtOpR_fields .add dr sr1 sr2
  simp [decodeWord, encode, h, h1, h2, h3, h4]

theorem addImm (dr sr1 : Reg) (imm5 : BitVec 5) : Statement (.addImm dr sr1 imm5) := fun _ => by
  obtain ⟨h, h1, h2, h3, h4⟩ := fmtOpI_fields .add dr sr1 imm5
  simp [decodeWord, encode, h, h1, h2, h3, h4]

theorem andReg (dr sr1 sr2 : Reg) : Statement (.andReg dr sr1 sr2) := fun _ => by
  obtain ⟨h, h1, h2, h3, h4⟩ := fmtOpR_fields .and dr sr1 sr2
  simp [decodeWord, encode, h, h1, h2, h3, h4]

theorem andImm (dr sr1 : Reg) (imm5 : BitVec 5) : Statement (.andImm dr sr1 imm5) := fun _ => by
  obtain ⟨h, h1, h2, h3, h4⟩ := fmtOpI_fields .and dr sr1 imm5
  simp [decodeWord, encode, h, h1, h2, h3, h4]

theorem notReg (dr sr : Reg) : Statement (.notReg dr sr) := fun _ => by
  obtain ⟨h, h1, h2, -⟩ := fmtBase6_fields .not dr sr 0b111111#6
  simp [decodeWord, encode, h, h1, h2]

theorem br (n z p : Bool) (offset9 : BitVec 9) : Statement (.br n z p offset9) := fun hw => by
  obtain ⟨h, h1, h2, h3, h4⟩ := fmtBr_fields n z p offset9
  simp only [decodeWord, encode, h, h1, h2, h3, h4, Opcode.ofBits_bits, brInstr]
  exact if_pos hw

theorem nop (offset9 : BitVec 9) : Statement (.nop offset9) := fun _ => by
  obtain ⟨h, h1, h2, h3, h4⟩ := fmtBr_fields false false false offset9
  simp [decodeWord, encode, h, h1, h2, h3, h4, brInstr]

theorem jmp (baseR : Reg) : Statement (.jmp baseR) := fun hw => by
  obtain ⟨h, h1, -⟩ := fmtJump_fields .jmp baseR
  simp only [decodeWord, encode, h, h1, Opcode.ofBits_bits, jmpInstr]
  exact if_neg (by simpa [Instr.wf] using hw)

theorem ret : Statement .ret := fun _ => by decide

theorem jsr (offset11 : BitVec 11) : Statement (.jsr offset11) := fun _ => by
  obtain ⟨h, h1, h2⟩ := fmtJsr_fields offset11
  simp [decodeWord, encode, h, h1, h2]

theorem jsrr (baseR : Reg) : Statement (.jsrr baseR) := fun _ => by
  obtain ⟨h, h1, h2⟩ := fmtJump_fields .jsr baseR
  simp [decodeWord, encode, h, h1, h2]

theorem ld (dr : Reg) (offset9 : BitVec 9) : Statement (.ld dr offset9) := fun _ => by
  obtain ⟨h, h1, h2⟩ := fmtPc9_fields .ld dr offset9
  simp [decodeWord, encode, h, h1, h2]

theorem ldi (dr : Reg) (offset9 : BitVec 9) : Statement (.ldi dr offset9) := fun _ => by
  obtain ⟨h, h1, h2⟩ := fmtPc9_fields .ldi dr offset9
  simp [decodeWord, encode, h, h1, h2]

theorem ldr (dr baseR : Reg) (offset6 : BitVec 6) : Statement (.ldr dr baseR offset6) := fun _ => by
  obtain ⟨h, h1, h2, h3⟩ := fmtBase6_fields .ldr dr baseR offset6
  simp [decodeWord, encode, h, h1, h2, h3]

theorem lea (dr : Reg) (offset9 : BitVec 9) : Statement (.lea dr offset9) := fun _ => by
  obtain ⟨h, h1, h2⟩ := fmtPc9_fields .lea dr offset9
  simp [decodeWord, encode, h, h1, h2]

theorem st (sr : Reg) (offset9 : BitVec 9) : Statement (.st sr offset9) := fun _ => by
  obtain ⟨h, h1, h2⟩ := fmtPc9_fields .st sr offset9
  simp [decodeWord, encode, h, h1, h2]

theorem sti (sr : Reg) (offset9 : BitVec 9) : Statement (.sti sr offset9) := fun _ => by
  obtain ⟨h, h1, h2⟩ := fmtPc9_fields .sti sr offset9
  simp [decodeWord, encode, h, h1, h2]

theorem str (sr baseR : Reg) (offset6 : BitVec 6) : Statement (.str sr baseR offset6) := fun _ => by
  obtain ⟨h, h1, h2, h3⟩ := fmtBase6_fields .str sr baseR offset6
  simp [decodeWord, encode, h, h1, h2, h3]

theorem trap (trapvect8 : BitVec 8) : Statement (.trap trapvect8) := fun hw => by
  obtain ⟨h, h1⟩ := fmtTrap_fields trapvect8
  simp only [decodeWord, encode, h, h1, Opcode.ofBits_bits]
  exact trapInstr_wf trapvect8 hw

theorem getc : Statement .getc := fun _ => by decide

theorem out : Statement .out := fun _ => by decide

theorem puts : Statement .puts := fun _ => by decide

theorem in_ : Statement .in_ := fun _ => by decide

theorem halt : Statement .halt := fun _ => by decide

theorem reserved1101 : Statement .reserved1101 := fun _ => by decide

theorem unlisted1000 : Statement .unlisted1000 := fun _ => by decide

end Sys2Proof.Laws.RoundTrip
end

