-- ==== Sys2Proof/Laws/Step.lean ====
section
/-! SUPPORT. One step, once: which of three things it is, what the cascade has done when the execute step begins, when a
service holds, and what the end of a step adds. -/

namespace Sys2Proof.Machine

/-! ## Before the execute step -/

/-- The state in which the execute step of a `step()` begins (R102 steps 1 to 3). -/
def State.prepared (s : State) : State := s.beginCall.raiseClock.beforeExecute

section Prepared
variable (s : State)

@[simp] theorem State.nextWord_beginCall : s.beginCall.nextWord = s.nextWord := rfl
@[simp] theorem State.nextWord_raiseClock : s.raiseClock.nextWord = s.nextWord := by simp [State.nextWord]
@[simp] theorem State.prepared_regs : s.prepared.regs = s.regs := by simp [State.prepared, State.beforeExecute]
@[simp] theorem State.prepared_pc : s.prepared.pc = s.pc + 1 := by simp [State.prepared, State.beforeExecute]
@[simp] theorem State.prepared_flags : s.prepared.flags = s.flags := by simp [State.prepared, State.beforeExecute]
@[simp] theorem State.prepared_clk : s.prepared.clk = false := by simp [State.prepared, State.beforeExecute]
@[simp] theorem State.prepared_isRunning : s.prepared.isRunning = s.isRunning := by
  simp [State.prepared, State.beforeExecute]
@[simp] theorem State.prepared_tracing : s.prepared.tracing = s.tracing := by simp [State.prepared, State.beforeExecute]
@[simp] theorem State.prepared_instr : s.prepared.instr = some s.nextWord := by
  simp [State.prepared, State.beforeExecute, State.nextWord]
@[simp] theorem State.prepared_edgeSeen : s.prepared.edgeSeen = true := by simp [State.prepared, State.beforeExecute]
@[simp] theorem State.prepared_mem : s.prepared.mem = s.mem := by simp [State.prepared, State.beforeExecute]
@[simp] theorem State.prepared_input : s.prepared.input = s.input := by simp [State.prepared, State.beforeExecute]
@[simp] theorem State.prepared_inputClosed : s.prepared.inputClosed = s.inputClosed := by
  simp [State.prepared, State.beforeExecute]
@[simp] theorem State.prepared_output : s.prepared.output = s.output := by simp [State.prepared, State.beforeExecute]
@[simp] theorem State.prepared_outFails : s.prepared.outFails = s.outFails := by
  simp [State.prepared, State.beforeExecute]
@[simp] theorem State.prepared_outputClosed : s.prepared.outputClosed = s.outputClosed := by
  simp [State.prepared, State.beforeExecute]
@[simp] theorem State.prepared_hold : s.prepared.hold = s.hold := by simp [State.prepared, State.beforeExecute]
@[simp] theorem State.prepared_report : s.prepared.report = none := by simp [State.prepared, State.beforeExecute]
@[simp] theorem State.reg_prepared (r : Reg) : s.prepared.reg r = s.reg r := State.reg_congr (by simp) r

/-- The events before the execute step (R113). -/
theorem State.prepared_trace :
    Traced ((if s.clk then [] else [.edgeRising]) ++
      [.edgeFalling, .fetch s.nextWord, .decode s.nextWord (decodeWord s.nextWord).rowClass]) s s.prepared := by
  unfold Traced State.prepared State.beforeExecute
  cases hc : s.clk <;> cases ht : s.tracing <;> simp [hc, ht, State.nextWord]

end Prepared

/-! ## The three kinds of step -/

/-- A step of a running engine is `exec` of the decoded instruction (R102, R109). -/
theorem step_running {s : State} (hh : s.hold = none) (hr : s.isRunning = true) :
    ∃ t, exec (decodeWord s.nextWord) s.prepared = .next t ∧ step s = .next t.endStep := by
  obtain ⟨t, ht, -⟩ := exec_next (decodeWord s.nextWord) s.prepared
  refine ⟨t, ht, ?_⟩
  have hf : fallingEdge s.beginCall.raiseClock = .next t := by simp [fallingEdge, hr, ← ht, State.prepared]
  simp [step, stepOrContinue, hh, stepCall, hf]

/-- A step of an engine that does not run (R107). -/
theorem step_halted {s : State} (hh : s.hold = none) (hr : s.isRunning = false) :
    step s = .next s.beginCall.raiseClock.recordFalling.raiseClock := by
  simp [step, stepOrContinue, hh, stepCall, fallingEdge, hr, State.endStep]

/-- A step of a held call (R114). -/
theorem step_held {s : State} {h : Hold} (hh : s.hold = some h) : step s = .next (s.continueCall h) := by
  simp [step, stepOrContinue, hh]

/-- Every step is one of the three, and answers a next state. -/
theorem step_cases (s : State) :
    (s.hold = none ∧ s.isRunning = true ∧
      ∃ t, exec (decodeWord s.nextWord) s.prepared = .next t ∧ step s = .next t.endStep) ∨
    (s.hold = none ∧ s.isRunning = false ∧ step s = .next s.beginCall.raiseClock.recordFalling.raiseClock) ∨
    (∃ h, s.hold = some h ∧ step s = .next (s.continueCall h)) := by
  cases hh : s.hold with
  | none =>
    cases hr : s.isRunning
    · exact .inr (.inl ⟨rfl, rfl, step_halted hh hr⟩)
    · exact .inl ⟨rfl, rfl, step_running hh hr⟩
  | some h => exact .inr (.inr ⟨h, rfl, step_held hh⟩)

/-! ## The end of a step -/

section EndStep
variable (t : State)

theorem State.endStep_eq :
    (t.hold = none ∧ t.endStep = t.raiseClock) ∨
    (∃ h, t.hold = some h ∧ t.endStep = { t with hold := some { h with byStep := true } }) := by
  unfold State.endStep
  cases hh : t.hold with
  | none => exact .inl ⟨rfl, by simp⟩
  | some h => exact .inr ⟨h, rfl, by simp⟩

@[simp] theorem State.endStep_regs : t.endStep.regs = t.regs := by unfold State.endStep; split <;> simp
@[simp] theorem State.endStep_pc : t.endStep.pc = t.pc := by unfold State.endStep; split <;> simp
@[simp] theorem State.endStep_flags : t.endStep.flags = t.flags := by unfold State.endStep; split <;> simp
@[simp] theorem State.endStep_isRunning : t.endStep.isRunning = t.isRunning := by unfold State.endStep; split <;> simp
@[simp] theorem State.endStep_tracing : t.endStep.tracing = t.tracing := by unfold State.endStep; split <;> simp
@[simp] theorem State.endStep_instr : t.endStep.instr = t.instr := by unfold State.endStep; split <;> simp
@[simp] theorem State.endStep_mem : t.endStep.mem = t.mem := by unfold State.endStep; split <;> simp
@[simp] theorem State.endStep_input : t.endStep.input = t.input := by unfold State.endStep; split <;> simp
@[simp] theorem State.endStep_inputClosed : t.endStep.inputClosed = t.inputClosed := by
  unfold State.endStep; split <;> simp
@[simp] theorem State.endStep_output : t.endStep.output = t.output := by unfold State.endStep; split <;> simp
@[simp] theorem State.endStep_outFails : t.endStep.outFails = t.outFails := by unfold State.endStep; split <;> simp
@[simp] theorem State.endStep_outputClosed : t.endStep.outputClosed = t.outputClosed := by
  unfold State.endStep; split <;> simp
@[simp] theorem State.endStep_report : t.endStep.report = t.report := by unfold State.endStep; split <;> simp
@[simp] theorem State.reg_endStep (r : Reg) : t.endStep.reg r = t.reg r := State.reg_congr (by simp) r
theorem State.endStep_hold_none (h : t.hold = none) : t.endStep = t.raiseClock := by simp [State.endStep, h]

end EndStep

/-! ## A single `set_clock` -/

/-- What a `set_clock` can be: no edge, a rising edge, a falling edge that is recorded only, or `exec` of the decoded
instruction (R100). -/
theorem setClock_cases {b : Bool} {s t : State} (h : setClock b s = .next t) :
    s.hold = none ∧
      ((s.clk = b ∧ t = s.beginCall) ∨ (b = true ∧ s.clk = false ∧ t = s.beginCall.raiseClock) ∨
        (b = false ∧ s.clk = true ∧ s.isRunning = false ∧ t = s.beginCall.recordFalling) ∨
        (b = false ∧ s.clk = true ∧ s.isRunning = true ∧
          exec (decodeWord s.nextWord) s.beginCall.beforeExecute = .next t)) := by
  cases hh : s.hold with
  | some _ => simp [setClock, hh] at h
  | none =>
    refine ⟨rfl, ?_⟩
    cases b <;> cases hc : s.clk <;> simp only [setClock, hh, fallingEdge] at h
    · cases hr : s.isRunning <;> simp_all
    · cases hr : s.isRunning <;> simp_all
    · simp_all
    · have : s.beginCall.raiseClock = s.beginCall := by simp [State.raiseClock, hc]
      simp_all

/-! ## A held call going on -/

/-- Where the service still holds, so does the call; where it has ended, the last rising edge of a `step()` follows. -/
theorem State.continueCall_cases (h : Hold) (s : State) :
    (∃ g, (({ s with hold := none } : State).continueService h.service).hold = some g ∧
      s.continueCall h =
        { ({ s with hold := none } : State).continueService h.service with hold := some { g with byStep := h.byStep } }) ∨
    ((({ s with hold := none } : State).continueService h.service).hold = none ∧
      s.continueCall h = if h.byStep then (({ s with hold := none } : State).continueService h.service).raiseClock
        else ({ s with hold := none } : State).continueService h.service) := by
  unfold State.continueCall
  cases hh : (({ s with hold := none } : State).continueService h.service).hold with
  | none => exact .inr ⟨rfl, by simp [hh]⟩
  | some g => exact .inl ⟨g, rfl, by simp [hh]⟩

/-- A held call leaves `is_running`, and reports nothing new but `IoError` (R162). -/
theorem State.continueCall_io (h : Hold) (s : State) : IoFrame s (s.continueCall h) := by
  have f : IoFrame s (({ s with hold := none } : State).continueService h.service) :=
    IoFrame.continueService h.service { s with hold := none }
  rcases s.continueCall_cases h with ⟨g, -, e⟩ | ⟨-, e⟩ <;> rw [e]
  · exact f
  · split
    · simpa [IoFrame] using f
    · exact f

/-- The end of a held call: the service's own effect, then the last rising edge. -/
theorem State.continueCall_ends {h : Hold} {s q : State} {evs : List Event}
    (hq : ({ s with hold := none } : State).continueService h.service = q) (hh : q.hold = none) (ht : Traced evs s q) :
    EndsHeldCall h evs s (s.continueCall h) ∧ s.continueCall h = if h.byStep then q.raiseClock else q := by
  have f := ServiceFrame.continueService h.service { s with hold := none }
  have io := IoFrame.continueService h.service { s with hold := none }
  rw [hq] at f io
  have e : s.continueCall h = if h.byStep then q.raiseClock else q := by
    rcases s.continueCall_cases h with ⟨g, hg, -⟩ | ⟨-, e⟩
    · rw [hq, hh] at hg; cases hg
    · rw [e, hq]
  obtain ⟨hclk, htr, hin, hes⟩ := f.frame.clock
  have hm : q.mem = s.mem := f.mem
  have hp : q.pc = s.pc := f.pc
  have hf : q.flags = s.flags := f.flags
  have hr : KeepsRegsBut 0 s q := f.regs
  have hi : q.isRunning = s.isRunning := io.1
  refine ⟨?_, e⟩
  rw [e]
  unfold Traced at ht
  cases hb : h.byStep <;> cases hc : s.clk <;> simp only [hc] at hclk <;>
    exact ⟨by simp [hh], by simpa [KeepsRegsBut] using hr, by simp [hf], by simp [hp], fun a => by simp [hm], by simp [hin],
      by simp [hi], by simp [hclk, hc, hb], by simp [hes, hb, hc, hclk, State.raiseClock], by simp [htr],
      by unfold Traced; cases hs : s.tracing <;> simp_all [State.raiseClock]⟩

/-! ## When a service holds (R114) -/

/-- After a service that began with no call held: either none is held, or this service holds, nothing is reported and
`is_running` is as before; PUTS holds only where no word of memory is zero. -/
def HoldsOnlyAs (h : Held) (s t : State) : Prop :=
  t.hold = none ∨
    (t.hold = some ⟨h, false⟩ ∧ t.report = s.report ∧ t.isRunning = s.isRunning ∧
      (h = .puts → ∀ a, s.mem.read a ≠ 0))

theorem getc_holds (s : State) (h : s.hold = none) : HoldsOnlyAs .getc s s.getc := by
  unfold HoldsOnlyAs State.getc
  rcases inRead_cases s with ⟨c, rest, -, hr⟩ | ⟨rest, -, hr⟩ | ⟨-, -, hr⟩ | ⟨-, -, hr⟩ <;>
    simp [hr, InResult.andThen, h]

theorem out_holds (s : State) (h : s.hold = none) : s.out.hold = none := by
  unfold State.out
  rcases outWrite_cases (lowByte (s.reg 0)) s with ⟨-, hw⟩ | ⟨-, hw⟩ <;> simp [hw, OutResult.andThen, h]

theorem inAfterPrompt_holds (s : State) (h : s.hold = none) : HoldsOnlyAs .in_ s s.inAfterPrompt := by
  unfold HoldsOnlyAs State.inAfterPrompt
  rcases inRead_cases s with ⟨c, rest, -, hr⟩ | ⟨rest, -, hr⟩ | ⟨-, -, hr⟩ | ⟨-, -, hr⟩ <;>
    simp only [hr, InResult.andThen]
  · rcases outWrite_cases c s.takeInput with ⟨-, hw⟩ | ⟨-, hw⟩ <;> simp [hw, OutResult.andThen, h]
  all_goals simp [h]

theorem inWith_holds (prompt : List Byte) (s : State) (h : s.hold = none) :
    HoldsOnlyAs .in_ s (s.inWith prompt) := by
  unfold State.inWith
  rcases outWriteAll_frame prompt s with ⟨t, ht, -, e⟩ | ⟨t, ht, -, e⟩ <;> simp only [ht, OutResult.andThen]
  · have hth : t.hold = none := by rw [e]; exact h
    have hrep : t.report = s.report := by rw [e]
    have hrun : t.isRunning = s.isRunning := by rw [e]
    simpa [HoldsOnlyAs, hrep, hrun] using inAfterPrompt_holds t hth
  · left
    rw [State.raise_hold, e]
    exact h

/-- After `fuel` words without a zero, and no failure, the loop holds; the words are those from `a` on. -/
theorem putsLoop_holds (fuel : Nat) (a : Word) (s : State) (h : s.hold = none) :
    (putsLoop fuel a s).hold = none ∨
    ((putsLoop fuel a s).hold = some ⟨.puts, false⟩ ∧ (putsLoop fuel a s).report = s.report ∧
      (putsLoop fuel a s).isRunning = s.isRunning ∧
      ∀ k, k < fuel → s.mem.read (a + BitVec.ofNat 16 k) ≠ 0) := by
  induction fuel generalizing a s with
  | zero => exact .inr ⟨rfl, rfl, rfl, fun k hk => absurd hk (by omega)⟩
  | succ n ih =>
    unfold putsLoop
    split
    · exact .inl h
    · rename_i hz
      rcases outWrite_cases (lowByte (s.mem.read a)) s with ⟨-, hw⟩ | ⟨-, hw⟩ <;> simp only [hw, OutResult.andThen]
      · rcases ih (a + 1) (s.takeVerdict.appendOutput (lowByte (s.mem.read a))) h with
          h0 | ⟨h1, h2, h3, h4⟩
        · exact .inl h0
        · refine .inr ⟨h1, h2, h3, fun k hk => ?_⟩
          cases k with
          | zero => simpa using hz
          | succ j =>
            have := h4 j (by omega)
            rwa [show a + BitVec.ofNat 16 (j + 1) = a + 1 + BitVec.ofNat 16 j by
              rw [BitVec.add_assoc, BitVec.ofNat_add]; congr 1; exact BitVec.add_comm _ _]
      · exact .inl h

theorem puts_holds (s : State) (h : s.hold = none) : HoldsOnlyAs .puts s s.puts := by
  rcases putsLoop_holds Config.memWords (s.reg 0) s h with h0 | ⟨h1, h2, h3, h4⟩
  · exact .inl h0
  · refine .inr ⟨h1, h2, h3, fun _ a => ?_⟩
    have := h4 (a - s.reg 0).toNat (by simpa [Config.memWords] using (a - s.reg 0).isLt)
    rw [BitVec.ofNat_toNat, BitVec.setWidth_eq] at this
    rwa [show s.reg 0 + (a - s.reg 0) = a by rw [BitVec.add_comm, BitVec.sub_add_cancel]] at this

theorem continueService_holds (h : Held) (s : State) (hh : s.hold = none) :
    HoldsOnlyAs h s (s.continueService h) := by
  cases h
  · exact getc_holds s hh
  · exact inAfterPrompt_holds s hh
  · exact puts_holds s hh

/-- Which instructions can leave a call held: an instruction that decodes from a word and holds is the held service's. -/
theorem exec_holds {i : Instr} {s t : State} (hwf : i.wf = true) (h : s.hold = none) (he : exec i s = .next t) :
    t.hold = none ∨ ∃ v, i = v.instr ∧ HoldsOnlyAs v s t := by
  cases i with
  | addReg | addImm | andReg | andImm | notReg | ld | ldi | ldr | lea | st | sti | str | jmp | ret | jsr | jsrr | halt
  | reserved1101 | unlisted1000 => cases he; exact .inl h
  | br n z p off =>
    cases he
    left
    unfold State.branch
    split <;> exact h
  | nop off => cases he; left; unfold State.branch; split <;> exact h
  | trap v =>
    cases he
    left
    simp only [Instr.wf, serviceVectors] at hwf
    simp at hwf
    simp [State.trap, hwf, h]
  | getc => cases he; exact .inr ⟨.getc, rfl, getc_holds s h⟩
  | out => cases he; exact .inl (out_holds s h)
  | puts => cases he; exact .inr ⟨.puts, rfl, puts_holds s h⟩
  | in_ => cases he; exact .inr ⟨.in_, rfl, inWith_holds _ s h⟩

/-- The decoder gives well-formed instructions only. -/
theorem decodeWord_wf (w : Word) : (decodeWord w).wf = true := by
  unfold decodeWord
  split
  case h_1 => unfold brInstr; split <;> simp_all [Instr.wf]
  case h_13 => unfold jmpInstr; split <;> simp_all [Instr.wf]
  case h_16 =>
    unfold trapInstr
    repeat' split
    all_goals simp_all [Instr.wf, serviceVectors]
  all_goals first | rfl | (split <;> rfl)

/-- Which instructions clear `is_running` (R29). -/
theorem exec_stops_iff {i : Instr} {s t : State} (hwf : i.wf = true) (h : exec i s = .next t)
    (hr : s.isRunning = true) :
    t.isRunning = false ↔ i = .halt ∨ i = .reserved1101 ∨ i = .unlisted1000 := by
  cases i with
  | getc => cases h; simp [(IoFrame.getc s).1, hr]
  | out => cases h; simp [(IoFrame.out s).1, hr]
  | puts => cases h; simp [(IoFrame.puts s).1, hr]
  | in_ => cases h; simp [(IoFrame.inWith Config.inPrompt s).1, hr]
  | trap v =>
    cases h
    simp only [Instr.wf, serviceVectors] at hwf
    simp at hwf
    simp [State.trap, hwf, hr]
  | br | nop => cases h; unfold State.branch; split <;> simp [hr]
  | halt => cases h; simp [State.halt]
  | reserved1101 | unlisted1000 => cases h; simp [State.illegalOpcode]
  | addReg | addImm | andReg | andImm | notReg | ld | ldi | ldr | lea | st | sti | str | jmp | ret | jsr | jsrr =>
    cases h; simp [State.writeResult, State.link, hr]

end Sys2Proof.Machine
end

