-- ==== Sys2Proof/Laws/Streams.lean ====
section
/-! SUPPORT. What a whole sequence of output calls does when the stream accepts it and when it fails partway: OutWrite of
a list, and the loop of PUTS. -/

namespace Sys2Proof.Machine

/-! ## Verdicts -/

theorem State.outputAccepts_zero (s : State) : s.outputAccepts 0 := by
  simp [State.outputAccepts]

/-- The next `n + 1` calls succeed: the first does, and the `n` after it do. -/
theorem State.outputAccepts_succ (s : State) (b : Byte) (n : Nat) :
    s.outputAccepts (n + 1) ↔ s.outputAccepts 1 ∧ (s.takeVerdict.appendOutput b).outputAccepts n := by
  unfold State.outputAccepts
  simp only [State.appendOutput_outFails, State.takeVerdict_outFails, State.appendOutput_outputClosed,
    State.takeVerdict_outputClosed]
  cases s.outFails with
  | nil => simp; intro h; simp [h]
  | cons v rest => simp; tauto

/-- The `n + 1`st call after the first is the `n`th after it. -/
theorem State.outputFailsAfter_succ (s : State) (b : Byte) (n : Nat) :
    s.outputFailsAfter (n + 1) ↔ s.outputAccepts 1 ∧ (s.takeVerdict.appendOutput b).outputFailsAfter n := by
  unfold State.outputFailsAfter
  rw [State.outputAccepts_succ s b n]
  cases h : s.outFails <;> simp [h, and_assoc]

/-- A stream that accepts a call does not fail it. -/
theorem State.not_accepts_of_failing {s : State} (h : s.outputFailing) : ¬ s.outputAccepts 1 := by
  unfold State.outputFailing State.outputFailsAfter State.outputAccepts at *
  cases hf : s.outFails <;> simp_all

theorem outWrite_done {s : State} (h : s.outputAccepts 1) (b : Byte) :
    outWrite b s = .done (s.takeVerdict.appendOutput b) := by
  rcases outWrite_cases b s with ⟨-, hw⟩ | ⟨hf, -⟩
  · exact hw
  · exact absurd h (State.not_accepts_of_failing hf)

theorem outWrite_fails {s : State} (h : s.outputFailing) (b : Byte) : outWrite b s = .fails s.takeVerdict := by
  rcases outWrite_cases b s with ⟨ha, -⟩ | ⟨-, hw⟩
  · exact absurd ha (State.not_accepts_of_failing h)
  · exact hw

/-! ## A list of characters -/

/-- The state after the characters `bs` have been accepted. -/
def State.afterOutput (bs : List Byte) (s : State) : State :=
  { s with outFails := s.outFails.drop bs.length, output := s.output ++ bs }

@[simp] theorem State.afterOutput_nil (s : State) : s.afterOutput [] = s := by
  simp [State.afterOutput]

theorem State.afterOutput_cons (s : State) (b : Byte) (bs : List Byte) :
    s.afterOutput (b :: bs) = (s.takeVerdict.appendOutput b).afterOutput bs := by
  simp [State.afterOutput, State.takeVerdict, State.appendOutput]

theorem outWriteAll_done (bs : List Byte) (s : State) (h : s.outputAccepts bs.length) :
    outWriteAll bs s = .done (s.afterOutput bs) := by
  induction bs generalizing s with
  | nil => simp [outWriteAll]
  | cons b rest ih =>
    have h' := (s.outputAccepts_succ b rest.length).1 h
    simp only [outWriteAll, outWrite_done h'.1, ih _ h'.2, State.afterOutput_cons]

theorem outWriteAll_fails (bs : List Byte) (k : Nat) (s : State) (hk : k < bs.length) (h : s.outputFailsAfter k) :
    outWriteAll bs s = .fails (s.afterOutput (bs.take k)).takeVerdict := by
  induction bs generalizing s k with
  | nil => simp at hk
  | cons b rest ih =>
    cases k with
    | zero => simp [outWriteAll, outWrite_fails h]
    | succ j =>
      have h' := (s.outputFailsAfter_succ b j).1 h
      simp only [outWriteAll, outWrite_done h'.1, List.take_succ_cons, State.afterOutput_cons]
      exact ih j _ (by simpa using hk) h'.2

/-! ## The loop of PUTS -/

theorem addr_succ (a : Word) (j : Nat) : a + BitVec.ofNat 16 (j + 1) = a + 1 + BitVec.ofNat 16 j := by
  rw [BitVec.ofNat_add, BitVec.add_assoc, BitVec.add_comm (BitVec.ofNat 16 j)]
  rfl

theorem lowBytesFrom_succ (m : Memory) (a : Word) (n : Nat) :
    lowBytesFrom m a (n + 1) = lowByte (m.read a) :: lowBytesFrom m (a + 1) n := by
  simp only [lowBytesFrom, List.range_succ_eq_map, List.map_cons, List.map_map]
  congr 1
  · simp
  · refine List.map_congr_left fun k _ => ?_
    rw [Function.comp_apply, Nat.succ_eq_add_one, addr_succ]

@[simp] theorem lowBytesFrom_zero (m : Memory) (a : Word) : lowBytesFrom m a 0 = [] := rfl

/-- `n` words that are not zero, accepted by the stream, take the loop `n` words on. -/
theorem putsLoop_writes (n fuel : Nat) (a : Word) (s : State)
    (hz : ∀ k, k < n → s.mem.read (a + BitVec.ofNat 16 k) ≠ 0) (h : s.outputAccepts n) :
    putsLoop (n + fuel) a s = putsLoop fuel (a + BitVec.ofNat 16 n) (s.afterOutput (lowBytesFrom s.mem a n)) := by
  induction n generalizing a s with
  | zero => simp
  | succ n ih =>
    have h' := (s.outputAccepts_succ (lowByte (s.mem.read a)) n).1 h
    have ha : s.mem.read a ≠ 0 := by simpa using hz 0 (by omega)
    rw [show n + 1 + fuel = (n + fuel) + 1 by omega, putsLoop, if_neg ha, outWrite_done h'.1]
    rw [addr_succ, lowBytesFrom_succ, State.afterOutput_cons]
    exact ih (a + 1) _ (fun k hk => addr_succ a k ▸ hz (k + 1) (by omega)) h'.2

/-- A string of `n` words and the zero word after it. -/
theorem putsLoop_string (n fuel : Nat) (a : Word) (s : State) (hn : n < fuel) (hs : stringAt s.mem a n)
    (h : s.outputAccepts n) : putsLoop fuel a s = s.afterOutput (lowBytesFrom s.mem a n) := by
  obtain ⟨j, rfl⟩ : ∃ j, fuel = n + (j + 1) := ⟨fuel - n - 1, by omega⟩
  rw [putsLoop_writes n (j + 1) a s hs.1 h, putsLoop, if_pos]
  exact hs.2

/-- A failure at word `k`. -/
theorem putsLoop_failure (k fuel : Nat) (a : Word) (s : State) (hk : k < fuel)
    (hz : ∀ j, j ≤ k → s.mem.read (a + BitVec.ofNat 16 j) ≠ 0) (h : s.outputFailsAfter k) :
    putsLoop fuel a s = (s.afterOutput (lowBytesFrom s.mem a k)).takeVerdict.raise .ioError := by
  obtain ⟨j, rfl⟩ : ∃ j, fuel = k + (j + 1) := ⟨fuel - k - 1, by omega⟩
  have hlen : (lowBytesFrom s.mem a k).length = k := by simp [lowBytesFrom]
  have hf : (s.afterOutput (lowBytesFrom s.mem a k)).outputFailing := by
    simp only [State.outputFailing, State.outputFailsAfter, State.afterOutput, hlen, State.outputAccepts]
    simpa using h.2
  rw [putsLoop_writes k (j + 1) a s (fun i hi => hz i (by omega)) h.1, putsLoop,
    if_neg (show (s.afterOutput _).mem.read _ ≠ 0 from hz k (le_refl k)), outWrite_fails hf]
  rfl

/-- No zero word in the fuel's reach: the loop holds. -/
theorem putsLoop_endless (fuel : Nat) (a : Word) (s : State)
    (hz : ∀ k, k < fuel → s.mem.read (a + BitVec.ofNat 16 k) ≠ 0) (h : s.outputAccepts fuel) :
    putsLoop fuel a s = (s.afterOutput (lowBytesFrom s.mem a fuel)).holdIn .puts := by
  have := putsLoop_writes fuel 0 a s hz h
  rwa [Nat.add_zero] at this

end Sys2Proof.Machine
end

