-- ==== Sys2Proof/Tests/Slice0.lean ====
section
/-! SUPPORT. The model's own tests: the smoke test of WellFormed, decoding of words written out from R82, one-step tests
whose expected results are the rows of spec/95_test_vectors.md (named in each comment), and named witnesses for the
hypotheses of each statement. -/

namespace Sys2Proof.Tests

open Sys2Proof Sys2Proof.Machine Host

/-! ## WellFormed: an ill-formed term for each check -/

theorem test_wf_refuses_br_without_condition : (Instr.br false false false 5).wf = false := by decide
theorem test_wf_refuses_jmp_r7 : (Instr.jmp 7).wf = false := by decide
theorem test_wf_refuses_service_vectors :
    serviceVectors.all (fun v => (Instr.trap v).wf == false) = true ∧ (Instr.trap 0x24).wf = true := by decide

/-! ## Decoding: words written out bit by bit from the formats of R82, and with every ignored bit set (R88) -/

theorem test_decode_addReg : decodeWord 0b0001_010_000_0_00_001 = .addReg 2 0 1 ∧
    decodeWord 0b0001_000_000_0_11_011 = .addReg 0 0 3 := by decide
theorem test_decode_addImm : decodeWord 0b0001_011_010_1_10000 = .addImm 3 2 0b10000 := by decide
theorem test_decode_andReg : decodeWord 0b0101_011_001_0_00_010 = .andReg 3 1 2 ∧
    decodeWord 0b0101_011_001_0_11_010 = .andReg 3 1 2 := by decide
theorem test_decode_andImm : decodeWord 0b0101_001_110_1_01111 = .andImm 1 6 0b01111 := by decide
theorem test_decode_notReg : decodeWord 0b1001_001_100_111111 = .notReg 1 4 ∧
    decodeWord 0b1001_001_100_000000 = .notReg 1 4 := by decide
theorem test_decode_br : decodeWord 0b0000_1_0_0_111111111 = .br true false false 0b111111111 ∧
    decodeWord 0b0000_0_1_0_000000001 = .br false true false 1 ∧
    decodeWord 0b0000_0_0_1_011111111 = .br false false true 0b011111111 := by decide
theorem test_decode_nop : decodeWord 0b0000_0_0_0_000000101 = .nop 5 := by decide
theorem test_decode_jmp : decodeWord 0b1100_000_010_000000 = .jmp 2 ∧
    decodeWord 0b1100_111_010_111111 = .jmp 2 := by decide
theorem test_decode_ret : decodeWord 0b1100_000_111_000000 = .ret ∧
    decodeWord 0b1100_111_111_111111 = .ret := by decide
theorem test_decode_jsr : decodeWord 0b0100_1_10000000000 = .jsr 0b10000000000 := by decide
theorem test_decode_jsrr : decodeWord 0b0100_0_00_011_000000 = .jsrr 3 ∧
    decodeWord 0b0100_0_11_011_111111 = .jsrr 3 := by decide
theorem test_decode_ld : decodeWord 0b0010_010_111111111 = .ld 2 0b111111111 := by decide
theorem test_decode_ldi : decodeWord 0b1010_011_111111110 = .ldi 3 0b111111110 := by decide
theorem test_decode_ldr : decodeWord 0b0110_100_101_111111 = .ldr 4 5 0b111111 := by decide
theorem test_decode_lea : decodeWord 0b1110_101_000000010 = .lea 5 2 := by decide
theorem test_decode_st : decodeWord 0b0011_001_000000011 = .st 1 3 := by decide
theorem test_decode_sti : decodeWord 0b1011_001_000000001 = .sti 1 1 := by decide
theorem test_decode_str : decodeWord 0b0111_001_110_000010 = .str 1 6 2 := by decide
theorem test_decode_trap : decodeWord 0b1111_0000_00100100 = .trap 0x24 ∧
    decodeWord 0b1111_1111_00000000 = .trap 0 := by decide
theorem test_decode_services : decodeWord 0b1111_0000_00100000 = .getc ∧ decodeWord 0b1111_0000_00100001 = .out ∧
    decodeWord 0b1111_0000_00100010 = .puts ∧ decodeWord 0b1111_0000_00100011 = .in_ ∧
    decodeWord 0b1111_0000_00100101 = .halt ∧ decodeWord 0b1111_1111_00100101 = .halt := by decide
theorem test_decode_faulting : decodeWord 0b1101_000000000000 = .reserved1101 ∧
    decodeWord 0b1101_111111111111 = .reserved1101 ∧ decodeWord 0b1000_000000000000 = .unlisted1000 ∧
    decodeWord 0b1000_111111111111 = .unlisted1000 := by decide
theorem test_decode_bytes : decodeBytes [0x12, 0x7F, 0xF0] = .ok (.addImm 1 1 0b11111, [0xF0]) ∧
    decodeBytes [0x12] = .error .truncated ∧ decodeBytes [] = .error .truncated := ⟨rfl, rfl, rfl⟩

/-- The encoder writes the words of the spec's vectors (O1, O6, B1, B12, B11, M14, T7). -/
theorem test_encode : encode (.addReg 2 0 1) = 0x1401 ∧ encode (.addImm 1 1 0b11111) = 0x127F ∧
    encode (.br false true false 0x1FD) = 0x05FD ∧ encode (.jsr 4) = 0x4804 ∧ encode .ret = 0xC1C0 ∧
    encode (.str 1 6 2) = 0x7382 ∧ encode .halt = 0xF025 ∧ encode (.notReg 1 0) = 0x923F := by decide

/-! ## One step -/

/-- A started engine between calls, the word at the PC, clock high, tracing on. -/
def at_ (pc w : Word) : State :=
  { State.reset with
    pc := pc, mem := Memory.write [] pc w, isRunning := true, clk := true, edgeSeen := true, tracing := true }

/-- One more memory word. -/
def poke (a v : Word) (s : State) : State := { s with mem := s.mem.write a v }

/-- The step answers a next state for which the test holds. -/
def after (s : State) (p : State → Bool) : Bool :=
  match step s with
  | .next t => p t
  | .fault _ => false
  | .refused _ => false

/-- The events of the step between `decode` and the last rising edge. -/
def tail (t : State) : List Event := (t.trace.drop 3).dropLast

/-- O1, O2, O3, O4, O5. -/
theorem test_addReg :
    after ((((at_ 0x3000 0x1401).setReg 0 5).setReg 1 3)) (fun t => t.reg 2 == 8 && t.flags == some .P && t.pc == 0x3001 &&
      tail t == [.registerWrite (.gpr 2) 8, .conditionUpdate .P]) ∧
    after ((((at_ 0x3000 0x1401).setReg 0 0xFFFF).setReg 1 1)) (fun t => t.reg 2 == 0 && t.flags == some .Z) ∧
    after ((((at_ 0x3000 0x1401).setReg 0 0x7FFF).setReg 1 1)) (fun t => t.reg 2 == 0x8000 && t.flags == some .N) ∧
    after ((at_ 0x3000 0x1241).setReg 1 0x4001) (fun t => t.reg 1 == 0x8002) := by decide

/-- O6, with the whole trace of S5; O7, O8. -/
theorem test_addImm :
    after { at_ 0x3000 0x127F with clk := false } (fun t => t.reg 1 == 0xFFFF && t.flags == some .N && t.pc == 0x3001 &&
      t.instr == some 0x127F && t.trace == [.edgeRising, .edgeFalling, .fetch 0x127F, .decode 0x127F .ADD_IMM,
        .registerWrite (.gpr 1) 0xFFFF, .conditionUpdate .N, .edgeRising]) ∧
    after ((at_ 0x3000 0x16B0).setReg 2 0x10) (fun t => t.reg 3 == 0 && t.flags == some .Z) ∧
    after ((at_ 0x3000 0x16AF).setReg 2 0xFFF1) (fun t => t.reg 3 == 0 && t.flags == some .Z) := by decide

/-- O9. -/
theorem test_andReg :
    after (((at_ 0x3000 0x5642).setReg 1 0x0F0F).setReg 2 0x00FF) (fun t => t.reg 3 == 0x000F && t.flags == some .P) := by
  decide

/-- O10, O11, O12. -/
theorem test_andImm :
    after ((at_ 0x3000 0x5020).setReg 0 0xABCD) (fun t => t.reg 0 == 0 && t.flags == some .Z) ∧
    after ((at_ 0x3000 0x5270).setReg 1 0xABCD) (fun t => t.reg 1 == 0xABC0 && t.flags == some .N) ∧
    after ((at_ 0x3000 0x526F).setReg 1 0xABCD) (fun t => t.reg 1 == 0x000D && t.flags == some .P) := by decide

/-- O14, O15. -/
theorem test_notReg :
    after ((at_ 0x3000 0x923F).setReg 0 0x00FF) (fun t => t.reg 1 == 0xFF00 && t.flags == some .N) ∧
    after ((at_ 0x3000 0x9000).setReg 0 0xFFFF) (fun t => t.reg 0 == 0 && t.flags == some .Z) := by decide

/-- M1, M2, M3. -/
theorem test_ld :
    after (poke 0x3006 0x8001 (at_ 0x3000 0x2405)) (fun t => t.reg 2 == 0x8001 && t.flags == some .N) ∧
    after (at_ 0x3000 0x25FF) (fun t => t.reg 2 == 0x25FF && t.flags == some .P) ∧
    after (poke 0 0x1234 (at_ 0xFFFF 0x2000)) (fun t => t.reg 0 == 0x1234 && t.pc == 0) := by decide

/-- M4. -/
theorem test_ldi :
    after (poke 0x300F 0x4000 (poke 0x4000 7 (at_ 0x3010 0xA7FE)))
      (fun t => t.reg 3 == 7 && t.flags == some .P && t.pc == 0x3011) := by decide

/-- M5, M6, M7. -/
theorem test_ldr :
    after ((at_ 0x3000 0x697F).setReg 5 0x4001) (fun t => t.reg 4 == 0 && t.flags == some .Z) ∧
    after (poke 0x4000 0x9ABC ((at_ 0x3000 0x6240).setReg 1 0x4000)) (fun t => t.reg 1 == 0x9ABC && t.flags == some .N) ∧
    after (poke 0xFFFF 0x42 (at_ 0x3000 0x607F)) (fun t => t.reg 0 == 0x42) := by decide

/-- M8, M9, M10. -/
theorem test_lea :
    after (at_ 0x3000 0xE002) (fun t => t.reg 0 == 0x3003 && t.flags == some .P) ∧
    after (at_ 0x8000 0xEBFF) (fun t => t.reg 5 == 0x8000 && t.flags == some .N && t.pc == 0x8001) ∧
    after (at_ 0xFFFF 0xEA00) (fun t => t.reg 5 == 0 && t.flags == some .Z && t.pc == 0) := by decide

/-- M11, M12. -/
theorem test_st :
    after ((at_ 0x3000 0x3203).setReg 1 0xBEEF) (fun t => t.mem.read 0x3004 == 0xBEEF && t.flags == none &&
      tail t == [.memoryWrite 0x3004 0xBEEF]) ∧
    after ((at_ 0x3000 0x33FF).setReg 1 0x1111)
      (fun t => t.mem.read 0x3000 == 0x1111 && t.pc == 0x3001 && t.instr == some 0x33FF) := by decide

/-- M13. -/
theorem test_sti :
    after (poke 0x3002 0x5000 ((at_ 0x3000 0xB201).setReg 1 0x42)) (fun t => t.mem.read 0x5000 == 0x42) := by decide

/-- M14, M15, M16. -/
theorem test_str :
    after (((at_ 0x3000 0x7382).setReg 1 0x1234).setReg 6 0x4000) (fun t => t.mem.read 0x4002 == 0x1234) ∧
    after ((at_ 0x3000 0x7240).setReg 1 0x4000) (fun t => t.mem.read 0x4000 == 0x4000) ∧
    after (((at_ 0x3000 0x74DF).setReg 2 0xAAAA).setReg 3 0xFFF0) (fun t => t.mem.read 0x000F == 0xAAAA) := by decide

/-- B1, B2, B3, B6, B7. -/
theorem test_br :
    after { at_ 0x3005 0x05FD with flags := some .Z }
      (fun t => t.pc == 0x3003 && tail t == [.registerWrite .pc 0x3003] && t.flags == some .Z) ∧
    after { at_ 0x3005 0x05FD with flags := some .P } (fun t => t.pc == 0x3006 && tail t == []) ∧
    after (at_ 0x3000 0x0E01) (fun t => t.pc == 0x3001) ∧
    after { at_ 0x3000 0x09FF with flags := some .N } (fun t => t.pc == 0x3000) ∧
    after { at_ 0xFF80 0x02FF with flags := some .P } (fun t => t.pc == 0x0080) := by decide

/-- B5, B8. -/
theorem test_nop :
    after { at_ 0x3000 0x0005 with flags := some .Z } (fun t => t.pc == 0x3001 && tail t == []) ∧
    after (at_ 0xFFFF 0x0000) (fun t => t.pc == 0) := by decide

/-- The table of R140 over the condition bits and the flags, written out from 95_test_vectors.md. -/
theorem test_branch_table :
    (List.map (fun c : Option Cat => List.map (fun b : Bool × Bool × Bool =>
        branchTaken b.1 b.2.1 b.2.2 { State.reset with flags := c })
      [(false, false, false), (false, false, true), (false, true, false), (false, true, true),
       (true, false, false), (true, false, true), (true, true, false), (true, true, true)])
      [none, some .N, some .Z, some .P]) =
    [[false, false, false, false, false, false, false, false], [false, false, false, false, true, true, true, true],
     [false, false, true, true, false, false, true, true], [false, true, false, true, false, true, false, true]] := by
  decide

/-- B9, B10, B11. -/
theorem test_jmp :
    after ((at_ 0x3000 0xC080).setReg 2 0x4000)
      (fun t => t.pc == 0x4000 && tail t == [.registerWrite .pc 0x4000]) ∧
    after ((at_ 0x3000 0xCFFF).setReg 7 0x1234) (fun t => t.pc == 0x1234) ∧
    after ((at_ 0x3000 0xC1C0).setReg 7 0x3002) (fun t => t.pc == 0x3002) := by decide

/-- B12, B13. -/
theorem test_jsr :
    after (at_ 0x3000 0x4804) (fun t => t.reg 7 == 0x3001 && t.pc == 0x3005 &&
      tail t == [.registerWrite (.gpr 7) 0x3001, .registerWrite .pc 0x3005]) ∧
    after (at_ 0x3000 0x4C00) (fun t => t.reg 7 == 0x3001 && t.pc == 0x2C01) := by decide

/-- B14, B15. -/
theorem test_jsrr :
    after ((at_ 0x3000 0x40C0).setReg 3 0x5000) (fun t => t.reg 7 == 0x3001 && t.pc == 0x5000) ∧
    after ((at_ 0x3000 0x41C0).setReg 7 0x5000) (fun t => t.reg 7 == 0x3001 && t.pc == 0x3001) := by decide

/-- T1, T14. -/
theorem test_getc :
    after { (at_ 0x3000 0xF020).setReg 0 0xFFFF with input := [.char 0x41], flags := some .N }
      (fun t => t.reg 0 == 0x41 && t.flags == some .N && t.input == [] && t.output == [] &&
        tail t == [.registerWrite (.gpr 0) 0x41]) ∧
    after { (at_ 0x3000 0xF020).setReg 0 0xFFFF with inputClosed := true }
      (fun t => t.report == some .ioError && t.reg 0 == 0xFFFF && t.isRunning && t.pc == 0x3001) := by decide

/-- T2. -/
theorem test_out :
    after ((at_ 0x3000 0xF021).setReg 0 0x1248) (fun t => t.output == [0x48] && t.reg 0 == 0x1248 && tail t == []) := by
  decide

/-- T3, T4, T5. -/
theorem test_puts :
    after (poke 0x4000 0x48 (poke 0x4001 0x169 (poke 0x4002 0x100 ((at_ 0x3000 0xF022).setReg 0 0x4000))))
      (fun t => t.output == [0x48, 0x69, 0x00] && t.reg 0 == 0x4000 && t.hold == none) ∧
    after (poke 0xFFFF 0x41 (poke 0 0x42 ((at_ 0x3000 0xF022).setReg 0 0xFFFF))) (fun t => t.output == [0x41, 0x42]) ∧
    after ((at_ 0x3000 0xF022).setReg 0 0x5000) (fun t => t.output == []) := by decide

/-- T6, T15: the service with the prompt of the vectors, on the state in which the execute step begins. -/
theorem test_in :
    (let t := ({ (at_ 0x3000 0xF023) with input := [.char 0x79] } : State).inWith [0x3E, 0x20]
     t.output = [0x3E, 0x20, 0x79] ∧ t.reg 0 = 0x79 ∧ t.flags = none ∧ t.trace = [.registerWrite (.gpr 0) 0x79]) ∧
    (let t := ({ (at_ 0x3000 0xF023).setReg 0 5 with inputClosed := true } : State).inWith [0x3E, 0x20]
     t.output = [0x3E, 0x20] ∧ t.report = some .ioError ∧ t.reg 0 = 5) := by decide

/-- T7, T8. -/
theorem test_halt :
    after (at_ 0x3000 0xF025)
      (fun t => !t.isRunning && t.pc == 0x3001 && tail t == [.halt] && t.report == none && t.output == []) ∧
    after (at_ 0x3000 0xFF25) (fun t => !t.isRunning && t.report == none) := by decide

/-- T9, T10. -/
theorem test_unknown_trap :
    after (at_ 0x3000 0xF024) (fun t => t.report == some .unknownTrap && t.isRunning && t.pc == 0x3001 && tail t == []) ∧
    after (at_ 0x3000 0xF000) (fun t => t.report == some .unknownTrap && t.isRunning) := by decide

/-- T11 (S7), T12. -/
theorem test_reserved1101 :
    after ((at_ 0x3000 0xD000).setReg 0 1) (fun t => t.report == some .illegalOpcode && !t.isRunning && t.pc == 0x3001 &&
      t.instr == some 0xD000 && t.reg 0 == 1 && t.trace == [.edgeFalling, .fetch 0xD000,
        .decode 0xD000 .RESERVED_1101, .edgeRising]) ∧
    after (at_ 0x3000 0xDFFF) (fun t => t.report == some .illegalOpcode && !t.isRunning) := by decide

/-- T13. -/
theorem test_unlisted1000 :
    after (at_ 0x3000 0x8000) (fun t => t.report == some .illegalOpcode && !t.isRunning && t.pc == 0x3001) := by decide

/-! ## Flags, sign extension, the clock, the loader -/

/-- S1. -/
theorem test_sign_category : signCategory 0 = .Z ∧ signCategory 1 = .P ∧ signCategory 0x7FFF = .P ∧
    signCategory 0x8000 = .N ∧ signCategory 0xFFFF = .N := by decide

/-- S2: the corners of the four widths. -/
theorem test_sext : sext (0x0F : BitVec 5) = 0x000F ∧ sext (0x10 : BitVec 5) = 0xFFF0 ∧ sext (0x20 : BitVec 6) = 0xFFE0 ∧
    sext (0x0FF : BitVec 9) = 0x00FF ∧ sext (0x100 : BitVec 9) = 0xFF00 ∧ sext (0x400 : BitVec 11) = 0xFC00 ∧
    reextend 11 0xFC00 = 0xFC00 := by decide

/-- K1 as one step (its last rising edge added): no fetch before `start()`. -/
theorem test_step_not_started :
    after { State.reset with tracing := true, mem := Memory.write [] 0 0x1021 } (fun t =>
      t.trace == [.edgeRising, .edgeFalling, .edgeRising] && t.pc == 0 && t.instr == none && t.reg 0 == 0) := by decide

/-- K2, and K3's repeated level. -/
theorem test_set_clock_levels :
    (match setClock false State.reset with | .next t => decide (t = State.reset) | _ => false) = true ∧
    (match setClock true (at_ 0x3000 0x1021) with | .next t => decide (t = at_ 0x3000 0x1021) | _ => false) = true := by
  decide

/-- K4: with tracing off the log stays empty. -/
theorem test_step_untraced :
    after { at_ 0x3000 0x1021 with tracing := false } (fun t => t.reg 0 == 1 && t.flags == some .P && t.trace == []) := by
  decide

/-- L1. -/
theorem test_load_bytes :
    (match loadBytes [0x30, 0x00, 0x50, 0x20, 0xF0, 0x25] false State.reset with
      | .next t => t.mem.read 0x3000 == 0x5020 && t.mem.read 0x3001 == 0xF025 && t.pc == 0x3000
      | _ => false) = true := by decide

/-- L1 as hexadecimal digits. -/
theorem test_load_hex :
    (match loadHex [3, 0, 0, 0, 5, 0, 2, 0, 0xF, 0, 2, 5] false State.reset with
      | .next t => t.mem.read 0x3000 == 0x5020 && t.mem.read 0x3001 == 0xF025 && t.pc == 0x3000
      | _ => false) = true := by decide

/-- L2, L3, L4, L5. -/
theorem test_load_overflow :
    (match loadImage 0xFFFE [1, 2] false State.reset with
      | .next t => t.mem.read 0xFFFE == 1 && t.mem.read 0xFFFF == 2
      | _ => false) = true ∧
    loadImage 0xFFFE [1, 2, 3] false State.reset = .fault .addressOverflow ∧
    (match loadImage 0xFFFE [1, 2, 3] true State.reset with
      | .next t => t.mem.read 0xFFFE == 1 && t.mem.read 0xFFFF == 2 && t.mem.read 0 == 3
      | _ => false) = true ∧
    loadBytes [0x30, 0x00, 0x12] false State.reset = .refused .malformedImage :=
  ⟨by decide, rfl, by decide, rfl⟩

theorem test_reset_memory_wf : State.reset.mem.wf = true := by decide

/-- The canonical form: writing zero removes the cells again. -/
theorem test_memory_canonical : (Memory.write (Memory.write [] 5 0x1234) 5 0) = [] ∧
    Memory.write (Memory.write [] 5 0x1234) 4 0x0001 = [(9, 1), (10, 0x12), (11, 0x34)] := by decide

/-! ## Witnesses: states and operands that meet the hypotheses of the statements, one theorem or more per statement -/

/-- A running engine between calls at a word of zeros, clock high. -/
def running : State := at_ 0x3000 0

/-- A `step()` call held in GETC. -/
def heldGetc : State :=
  { at_ 0x3000 0xF020 with pc := 0x3001, clk := false, instr := some 0xF020, hold := some ⟨.getc, true⟩ }

/-- A memory with no zero word: every byte is 1. -/
@[irreducible] def fullMemory : Memory := (List.range (2 * Config.memWords)).map (fun k => (k, 1))

theorem byteAt_map_range' (n a k : Nat) (h : a ≤ k ∧ k < a + n) :
    Memory.byteAt ((List.range' a n).map (fun k => (k, 1))) k = 1 := by
  induction n generalizing a with
  | zero => omega
  | succ n ih =>
    simp only [List.range'_succ, List.map_cons, Memory.byteAt]
    split
    · rfl
    · exact ih (a + 1) (by omega)

theorem fullMemory_read (a : Word) : fullMemory.read a = 0x0101 := by
  have := a.isLt
  unfold fullMemory Memory.read
  rw [List.range_eq_range', byteAt_map_range' _ _ _ (by simp only [Config.memWords]; omega),
    byteAt_map_range' _ _ _ (by simp only [Config.memWords]; omega)]
  rfl

/-- A running engine over the full memory. -/
def full : State := { running with mem := fullMemory }

theorem witness_reset_inv : EngineInv State.reset :=
  ⟨by decide, by decide, by decide, fun _ h => by cases h⟩

theorem witness_running_inv : EngineInv running :=
  ⟨by decide, by decide, by decide, fun _ h => by cases h⟩

theorem witness_held_inv : EngineInv heldGetc :=
  ⟨by decide, by decide, by decide, fun h hh => by
    cases hh; exact ⟨rfl, rfl, rfl, ⟨0xF020, rfl, by decide⟩, fun e => by cases e⟩⟩

theorem witness_StepKeepsInvariant : (EngineInv running ∧ ∃ t, step running = .next t) ∧
    (EngineInv heldGetc ∧ ∃ t, step heldGetc = .next t) :=
  ⟨⟨witness_running_inv, (step_cases running).elim (fun ⟨_, _, _, _, h⟩ => ⟨_, h⟩)
      (·.elim (fun ⟨_, _, h⟩ => ⟨_, h⟩) (fun ⟨_, _, h⟩ => ⟨_, h⟩))⟩,
   ⟨witness_held_inv, ⟨_, step_held rfl⟩⟩⟩

theorem witness_DriverKeepsInvariant : EngineInv State.reset ∧ (∃ t, setClock true State.reset = .next t) ∧
    (∃ t, resetOp true State.reset = .next t) ∧ (∃ t, startOp State.reset = .next t) ∧
    (∃ t, setTracing true State.reset = .next t) ∧ (∃ t, loadImage 0x3000 [1] false State.reset = .next t) :=
  ⟨witness_reset_inv, ⟨_, rfl⟩, ⟨_, rfl⟩, ⟨_, rfl⟩, ⟨_, rfl⟩, ⟨_, rfl⟩⟩

theorem witness_ResetValues : State.reset.hold = none := rfl

theorem witness_DecodeEncodeAgree : (Instr.br true false true 0x100).wf = true ∧ (Instr.trap 0xFF).wf = true ∧
    (Instr.jmp 6).wf = true := by decide

theorem witness_IgnoredBitsDoNotMatter :
    (0x101B : Word) &&& ~~~(decodeWord 0x101B).rowClass.ignoredBits =
      0x1003 &&& ~~~(decodeWord 0x101B).rowClass.ignoredBits := by decide

theorem witness_running : running.hold = none ∧ running.isRunning = true ∧ running.mem.read running.pc = 0 := by decide

theorem witness_RisingEdgeOnlyMarks : State.reset.hold = none ∧ State.reset.clk = false := by decide

theorem witness_HaltedEdgesOnlyRecord :
    let s : State := { running with isRunning := false }
    s.hold = none ∧ s.isRunning = false ∧ s.clk = true ∧ State.reset.clk = false := by decide

/-- Both ends of the falling edge: a service that holds, and one that does not. -/
theorem witness_StepIsThreeSetClocks :
    (match setClock false (at_ 0x3000 0xF020) with | .next v => v.hold == some ⟨.getc, false⟩ | _ => false) = true ∧
    (match setClock false (at_ 0x3000 0xF025) with | .next v => v.hold == none | _ => false) = true := by decide

theorem witness_LatchKeepsFetchedWord : running.hold = none ∧ running.isRunning = true ∧
    ∃ t, step running = .next t := ⟨rfl, rfl, witness_StepKeepsInvariant.1.2⟩

theorem witness_StoredWordRunsNext :
    let s := at_ 0xFFFF (encode (.st 7 0))
    s.hold = none ∧ s.isRunning = true ∧ s.mem.read s.pc = encode (.st 7 0) := by decide

theorem witness_FlagsChangeOnlyByWriters :
    (∃ t, exec (.addReg 0 0 0) running = .next t ∧ t.flags ≠ running.flags) ∧
    (let s : State := { running with flags := some .N }; s.flags ≠ none ∧ ∃ t, step s = .next t) :=
  ⟨⟨_, rfl, by decide⟩, by decide, ⟨_, rfl⟩⟩

theorem witness_CanonicalMemoriesAreEqual :
    Memory.wf [(5, 1)] = true ∧ Memory.wf (Memory.write [] 2 1) = true ∧
    ∀ a, Memory.read [(5, 1)] a = (Memory.write [] 2 1).read a := ⟨by decide, by decide, fun _ => rfl⟩

theorem witness_UnwrittenMemoryRunsAsNops : (∃ t, resetOp false running = .next t) ∧ running.hold = none ∧
    running.isRunning = true ∧ running.mem.read running.pc = 0 := ⟨⟨_, rfl⟩, witness_running⟩

theorem witness_OnlyStoresAndLoaderWriteMemory :
    (let s := (at_ 0x3000 0x3203).setReg 1 7; after s (fun t => t.mem != s.mem) = true) ∧
    (∃ t, exec (.st 1 0) (running.setReg 1 7) = .next t ∧ t.mem ≠ (running.setReg 1 7).mem) ∧
    ∃ t, setTracing false running = .next t ∧ startOp running = .next { running with isRunning := true } :=
  ⟨by decide, ⟨_, rfl, by decide⟩, ⟨_, rfl, rfl⟩⟩

theorem witness_BranchTakenOnMatchingFlag :
    (({ running with flags := some .P } : State).flags = some .P) ∧
    ¬(({ running with flags := some .P } : State).flags = some .N) := by decide

theorem witness_NoFlagNoBranch : running.flags = none := rfl

theorem witness_LinkRegisterChangesOnlyByCalls :
    (∃ t, exec (.jsr 0) running = .next t ∧ t.reg 7 ≠ running.reg 7) ∧
    ∃ t, exec (.lea 7 0) running = .next t ∧ t.reg 7 ≠ running.reg 7 := ⟨⟨_, rfl, by decide⟩, ⟨_, rfl, by decide⟩⟩

theorem witness_OnlyControlInstructionsWritePc :
    ∃ t, exec (.jmp 0) running = .next t ∧ t.pc ≠ running.pc := ⟨_, rfl, by decide⟩

/-- A character at the head of the input. -/
def typed : State := { running with input := [.char 0x41, .fail] }

theorem witness_GetcReadsOneCharacter : typed.input = .char 0x41 :: [.fail] := rfl

/-- A closed output stream. -/
def muted : State := { running with outputClosed := true }

theorem accepts_open {s : State} (h : s.outFails = []) (hc : s.outputClosed = false) (n : Nat) : s.outputAccepts n :=
  ⟨by simp [h], by simp [hc]⟩

/-- The verdict that is used up first decides, and the standing one after the last. -/
theorem witness_OutWritesLowByte : running.outputAccepts 1 ∧ muted.outputFailing ∧
    ({ running with outFails := [false], outputClosed := true } : State).outputAccepts 1 ∧
    ({ running with outFails := [true] } : State).outputFailing ∧
    bits (0xFF21 : Word) 12 4 = 0b1111 ∧ bits (0xFF21 : Word) 0 8 = 0x21 :=
  ⟨accepts_open rfl rfl 1, ⟨⟨by simp, by simp⟩, .inr ⟨rfl, rfl⟩⟩, ⟨by decide, by decide⟩,
   ⟨⟨by simp, by simp⟩, .inl rfl⟩, by decide, by decide⟩

/-- The empty string, and the longest one, which fills the memory but for the word before its first. -/
theorem witness_PutsWritesString : (stringAt running.mem (running.reg 0) 0 ∧ running.outputAccepts 0) ∧
    let s : State := { full with mem := fullMemory.write 0xFFFF 0 }
    stringAt s.mem (s.reg 0) 65535 ∧ s.outputAccepts 65535 := by
  refine ⟨⟨⟨fun k hk => absurd hk (by omega), by decide⟩, accepts_open rfl rfl 0⟩, ⟨fun k hk => ?_, ?_⟩, accepts_open rfl rfl _⟩
  · show (fullMemory.write 0xFFFF 0).read _ ≠ 0
    rw [Memory.read_write_other, fullMemory_read]
    · decide
    · show (0 : Word) + BitVec.ofNat 16 k ≠ 0xFFFF
      intro e
      have := congrArg BitVec.toNat e
      simp at this
      omega
  · show (fullMemory.write 0xFFFF 0).read ((0 : Word) + BitVec.ofNat 16 65535) = 0
    exact Memory.read_write_same _ _ _

theorem failsAfter_replicate (s : State) (n : Nat) :
    ({ s with outFails := List.replicate n false, outputClosed := true } : State).outputFailsAfter n :=
  ⟨⟨fun _ hb => List.eq_of_mem_replicate (List.mem_of_mem_take hb), fun _ => by simp⟩, .inr ⟨by simp, rfl⟩⟩

/-- The first and the last character that can fail. -/
theorem witness_PutsFailureKeepsWritten :
    ((∀ j, j ≤ 0 → full.mem.read (full.reg 0 + BitVec.ofNat 16 j) ≠ 0) ∧
      ({ full with outputClosed := true } : State).outputFailsAfter 0) ∧
    (∀ j, j ≤ 65535 → full.mem.read (full.reg 0 + BitVec.ofNat 16 j) ≠ 0) ∧
      ({ full with outFails := List.replicate 65535 false, outputClosed := true } : State).outputFailsAfter 65535 := by
  have h : ∀ a, full.mem.read a ≠ 0 := fun a => by
    rw [show full.mem.read a = 0x0101 from fullMemory_read a]; decide
  exact ⟨⟨fun _ _ => h _, ⟨by simp, by simp⟩, .inr ⟨rfl, rfl⟩⟩, fun _ _ => h _, failsAfter_replicate full 65535⟩

theorem witness_PutsWithoutZeroWordHolds :
    let s : State := { full with hold := some ⟨.puts, true⟩ }
    (∀ a, s.mem.read a ≠ 0) ∧ s.outputAccepts 65536 ∧ s.hold = some ⟨.puts, true⟩ := by
  refine ⟨fun a => ?_, accepts_open rfl rfl _, rfl⟩
  show fullMemory.read a ≠ 0
  rw [fullMemory_read]
  decide

theorem witness_InPromptsEchoesStores : typed.input = .char 0x41 :: [.fail] ∧
    typed.outputAccepts (Config.inPrompt.length + 1) := ⟨rfl, accepts_open rfl rfl _⟩

theorem witness_InputFailureKeepsR0 :
    (let s : State := { running with input := [.fail] }; s.inputFailing ∧ s.outputAccepts Config.inPrompt.length) ∧
    (let s : State := { running with inputClosed := true }; s.inputFailing ∧ s.outputAccepts Config.inPrompt.length) :=
  ⟨⟨.inl rfl, accepts_open rfl rfl _⟩, ⟨.inr ⟨rfl, rfl⟩, accepts_open rfl rfl _⟩⟩

theorem witness_InOutputFailureKeepsR0 :
    (0 < [(0x3E : Byte), 0x20].length ∧ muted.outputFailsAfter 0 ∧
      1 < [(0x3E : Byte), 0x20].length ∧ ({ running with outFails := [false, true] } : State).outputFailsAfter 1) ∧
    let s : State := { typed with outFails := [false, false, true] }
    s.input = .char 0x41 :: [.fail] ∧ s.outputFailsAfter [(0x3E : Byte), 0x20].length :=
  ⟨⟨by decide, ⟨⟨by simp, by simp⟩, .inr ⟨rfl, rfl⟩⟩, by decide, ⟨⟨by decide, by decide⟩, .inl rfl⟩⟩,
   rfl, ⟨by decide, by decide⟩, .inl rfl⟩

theorem witness_InputServicesWaitForHost :
    (running.input = [] ∧ running.inputClosed = false ∧ running.outputAccepts Config.inPrompt.length) ∧
    (heldGetc.hold = some ⟨.getc, true⟩ ∧ heldGetc.input = [] ∧ heldGetc.inputClosed = false) ∧
    (let s := heldGetc.supplyInput [.char 0x41]; s.hold = some ⟨.getc, true⟩ ∧ s.input = .char 0x41 :: []) ∧
    (let s : State := { typed with hold := some ⟨.in_, false⟩ }
     s.hold = some ⟨.in_, false⟩ ∧ s.input = .char 0x41 :: [.fail] ∧ s.outputAccepts 1) :=
  ⟨⟨rfl, rfl, accepts_open rfl rfl _⟩, ⟨rfl, rfl, rfl⟩, ⟨rfl, rfl⟩, rfl, rfl, accepts_open rfl rfl _⟩

theorem witness_HaltEndsRun :
    let s := at_ 0x3000 0xF025
    s.hold = none ∧ s.isRunning = true ∧ decodeWord (s.mem.read s.pc) = .halt ∧ bits (0xFF25 : Word) 12 4 = 0b1111 ∧
      bits (0xFF25 : Word) 0 8 = 0x25 := by decide

/-- The ends of the three ranges of unknown vectors, and the one between two services. -/
theorem witness_UnknownTrapReportsOnly :
    [0x00, 0x1F, 0x24, 0x26, 0xFF].all (fun v =>
      let s := at_ 0x3000 (encode (.trap v))
      decide (s.hold = none ∧ s.isRunning = true ∧ decodeWord (s.mem.read s.pc) = .trap v ∧ v ∉ serviceVectors ∧
        bits (encode (.trap v)) 12 4 = 0b1111 ∧ bits (encode (.trap v)) 0 8 ∉ serviceVectors)) = true := by decide

theorem witness_IllegalOpcodeEndsRunByFault :
    (let s := at_ 0x3000 0xD000
     s.hold = none ∧ s.isRunning = true ∧ bits (s.mem.read s.pc) 12 4 = 0b1101) ∧
    (let s := at_ 0x3000 0x8FFF
     s.hold = none ∧ s.isRunning = true ∧ bits (s.mem.read s.pc) 12 4 = 0b1000) := by decide

theorem witness_OnlyHaltAndIllegalOpcodeStop :
    (∃ t, step running = .next t ∧ t.isRunning = true) ∧ (∃ t, step (at_ 0x3000 0xF025) = .next t ∧ t.isRunning = false) ∧
    heldGetc.hold ≠ none ∧ ∃ t, step heldGetc = .next t :=
  ⟨⟨_, rfl, by decide⟩, ⟨_, rfl, by decide⟩, by decide, _, step_held rfl⟩

theorem witness_ErrorsOnlyFromTheirCauses : (heldGetc.hold ≠ none ∧ ∃ t, step heldGetc = .next t) ∧
    let s := at_ 0x3000 0xF024
    s.hold = none ∧ s.isRunning = true ∧ ∃ t, step s = .next t :=
  ⟨⟨by decide, _, step_held rfl⟩, rfl, rfl, _, rfl⟩

theorem witness_TracingDoesNotMatter :
    let s' : State := { running with tracing := false, trace := [.halt] }
    SameButTrace running s' ∧ (∃ t, step running = .next t) ∧ ∃ t, step s' = .next t := ⟨rfl, ⟨_, rfl⟩, ⟨_, rfl⟩⟩

theorem witness_TraceAndOutputOnlyGrow : (∃ t, step running = .next t) ∧
    ({ running with tracing := false } : State).tracing = false := ⟨⟨_, rfl⟩, rfl⟩

theorem witness_StartAndSetTracing : running.hold = none ∧ heldGetc.hold ≠ none := by decide

theorem witness_TrapDispatchesOnVector : bits (0xFF20 : Word) 12 4 = 0b1111 ∧ bits (0xF020 : Word) 0 8 = 0x20 ∧
    bits (0xF021 : Word) 0 8 = 0x21 ∧ bits (0xF022 : Word) 0 8 = 0x22 ∧ bits (0xF023 : Word) 0 8 = 0x23 ∧
    bits (0xFF25 : Word) 0 8 = 0x25 := by decide

/-- Each end of a held call that fails: the read, the echo, and PUTS at its first and last character. -/
theorem witness_HeldCallFailureReportsIoError :
    (let s : State := { heldGetc with inputClosed := true }; s.hold = some ⟨.getc, true⟩ ∧ s.inputFailing) ∧
    (let s : State := { muted with hold := some ⟨.in_, true⟩, input := [.char 0x41] }
     s.hold = some ⟨.in_, true⟩ ∧ s.input = .char 0x41 :: [] ∧ s.outputFailing) ∧
    (∀ j, j ≤ 65535 → full.mem.read (full.reg 0 + BitVec.ofNat 16 j) ≠ 0) ∧
    ({ full with hold := some ⟨.puts, true⟩, outputClosed := true } : State).outputFailsAfter 0 ∧
    ({ { full with hold := some ⟨.puts, true⟩ } with
        outFails := List.replicate 65535 false, outputClosed := true } : State).outputFailsAfter 65535 :=
  ⟨⟨rfl, .inr ⟨rfl, rfl⟩⟩, ⟨rfl, rfl, ⟨by simp, by simp⟩, .inr ⟨rfl, rfl⟩⟩, witness_PutsFailureKeepsWritten.2.1,
   ⟨⟨by simp, by simp⟩, .inr ⟨rfl, rfl⟩⟩, failsAfter_replicate { full with hold := some ⟨.puts, true⟩ } 65535⟩

/-- A run from its start to its end by two raw edges, and one by `step()`; and the two reports that end no run. -/
theorem witness_RunEndsByHaltOrIllegalOpcode :
    (∃ s u f, BeginsRun { at_ 0x3000 0xF025 with isRunning := false, clk := false } s ∧ GoesOn s u ∧
      setClock false u = .next f ∧ EndsRun u f ∧ RunEndsAfter 1 s f) ∧
    (∃ f, step (at_ 0x3000 0xD000) = .next f ∧ EndsRun (at_ 0x3000 0xD000) f) ∧
    after (at_ 0x3000 0xF024) (fun t => t.report == some .unknownTrap) ∧
    after { at_ 0x3000 0xF021 with outputClosed := true } (fun t => t.report == some .ioError) := by
  refine ⟨⟨_, _, _, ⟨rfl, rfl⟩, ⟨rfl, rfl, .inl (.inr ⟨true, rfl⟩)⟩, rfl, ⟨.inr ⟨false, rfl⟩, rfl, rfl⟩,
    _, ⟨rfl, rfl, .inl (.inr ⟨true, rfl⟩)⟩, .inr ⟨false, rfl⟩, rfl, rfl⟩, ⟨_, rfl, .inl rfl, rfl, rfl⟩, by decide, by decide⟩

/-- The sequence that ends with the last word of memory, the empty one, one that wraps, and one longer than memory, of
which word 0 is overwritten and word 1 is not. -/
theorem witness_LoaderWritesConsecutively :
    State.reset.hold = none ∧ State.reset.isRunning = false ∧ (0xFFFE : Word).toNat + [(1 : Word), 2].length ≤ 65536 ∧
    (0xFFFF : Word).toNat + ([] : List Word).length ≤ 65536 ∧
    ((true = true ∨ (0xFFFE : Word).toNat + [(1 : Word), 2, 3].length ≤ 65536) ∧
      2 < [(1 : Word), 2, 3].length ∧ [(1 : Word), 2, 3].length ≤ 2 + 65536 ∧
      (0x0001 : Word) ≠ 0xFFFE + BitVec.ofNat 16 0 ∧ (0x0001 : Word) ≠ 0xFFFE + BitVec.ofNat 16 1 ∧
      (0x0001 : Word) ≠ 0xFFFE + BitVec.ofNat 16 2) ∧
    ∀ w : Word, 1 < (List.replicate 65537 w).length ∧ (List.replicate 65537 w).length ≤ 1 + 65536 ∧
      ¬ (List.replicate 65537 w).length ≤ 0 + 65536 :=
  ⟨rfl, rfl, by decide, by decide, ⟨.inl rfl, by decide, by decide, by decide, by decide, by decide⟩,
   fun w => by rw [List.length_replicate]; omega⟩

theorem witness_LoaderOverflows :
    State.reset.hold = none ∧ State.reset.isRunning = false ∧ 65536 < (0xFFFE : Word).toNat + [(1 : Word), 2, 3].length := by
  decide

theorem witness_ByteImageLoadsItsWords : [(0x30 : Byte), 0, 0x12].length % 2 = 1 ∧ ([] : List Byte) = [] := by decide

end Sys2Proof.Tests
end

section
/-! Sign extension keeps the signed value and is idempotent (R7), at every width a word can hold. -/

namespace Sys2Proof.Machine

/-- At every width up to 16, the word read as signed is the field read as signed. -/
theorem toInt_sext {n : Nat} (f : BitVec n) (hn : n ≤ 16) : (sext f).toInt = f.toInt := by
  rw [sext_eq_signExtend f hn, BitVec.toInt_signExtend_of_le hn]

/-- Bit `n - 1` of the extended word, which `reextend` looks at, is the sign of the field. -/
theorem getLsbD_sext_sign {n : Nat} (f : BitVec n) (hpos : 0 < n) (hn : n ≤ 16) :
    (sext f).getLsbD (n - 1) = f.msb := by
  have hlt : n - 1 < n := by omega
  have hlt16 : n - 1 < 16 := by omega
  rw [sext_eq_signExtend f hn, BitVec.getLsbD_signExtend, BitVec.msb_eq_getLsbD_last]
  simp [hlt, hlt16]

/-- Extending again does nothing: a negative field has the fill in place already, any other asks for none. -/
theorem reextend_sext {n : Nat} (f : BitVec n) (hpos : 0 < n) (hn : n ≤ 16) : reextend n (sext f) = sext f := by
  rw [reextend, getLsbD_sext_sign f hpos hn]
  cases hsign : f.msb with
  | false => simp
  | true => simp [sext, hsign, BitVec.or_assoc]

/-- Settles O10: the two facts of sign extension at its four widths. -/
theorem signExtensionKeepsValue : Obligations.SignExtensionKeepsValue := by
  have hwidth {n : Nat} (hpos : 0 < n) (hn : n ≤ 16) (f : BitVec n) :
      (sext f).toInt = f.toInt ∧ reextend n (sext f) = sext f :=
    ⟨toInt_sext f hn, reextend_sext f hpos hn⟩
  exact ⟨hwidth (by decide) (by decide), hwidth (by decide) (by decide),
    hwidth (by decide) (by decide), hwidth (by decide) (by decide)⟩

end Sys2Proof.Machine
end

section
/-! Every step keeps the invariant (R33, R39, R102, R109, R114). Each part of a call keeps it where no call is held; from
the falling edge on, the state is inside a cascade, and what a cascade leaves held is the service of its own TRAP. -/

namespace Sys2Proof.Machine

/-! ## The parts of a call outside the execute step -/

section Edges
variable {s : State}

theorem EngineInv.beginCall (hs : EngineInv s) (hh : s.hold = none) : EngineInv s.beginCall where
  memory := hs.memory
  clockSeen := hs.clockSeen
  latchSeen := hs.latchSeen
  hold := by simp [hh]

theorem EngineInv.raiseClock_edgeSeen (hs : EngineInv s) : s.raiseClock.edgeSeen = true := by
  rw [State.raiseClock_edgeSeen]
  split
  · exact hs.clockSeen ‹_›
  · rfl

theorem EngineInv.raiseClock (hs : EngineInv s) (hh : s.hold = none) : EngineInv s.raiseClock where
  memory := by simpa using hs.memory
  clockSeen := fun _ => hs.raiseClock_edgeSeen
  latchSeen := fun _ => hs.raiseClock_edgeSeen
  hold := by simp [hh]

theorem EngineInv.recordFalling (hs : EngineInv s) (hh : s.hold = none) : EngineInv s.recordFalling where
  memory := hs.memory
  clockSeen := fun _ => rfl
  latchSeen := fun _ => rfl
  hold := by simp [hh]

/-- Which kind of call is held does not matter to the invariant. -/
theorem EngineInv.setByStep {h : Hold} (hs : EngineInv s) (hh : s.hold = some h) (b : Bool) :
    EngineInv { s with hold := some { h with byStep := b } } where
  memory := hs.memory
  clockSeen := hs.clockSeen
  latchSeen := hs.latchSeen
  hold := by
    rintro _ ⟨⟩
    obtain ⟨hrun, hlow, hrep, hlatch, hends⟩ := hs.hold h hh
    exact ⟨hrun, hlow, hrep, hlatch, hends⟩

theorem EngineInv.endStep (hs : EngineInv s) : EngineInv s.endStep := by
  rcases s.endStep_eq with ⟨hh, e⟩ | ⟨h, hh, e⟩ <;> rw [e]
  · exact hs.raiseClock hh
  · exact hs.setByStep hh true

end Edges

/-! ## Inside a cascade -/

/-- The state of a running engine from the fetch of `w` to the end of step 3, while no service holds (R102). -/
structure InCascade (w : Word) (s : State) : Prop where
  memory : s.mem.wf = true
  low : s.clk = false
  edgeSeen : s.edgeSeen = true
  running : s.isRunning = true
  latch : s.instr = some w
  noReport : s.report = none
  noHold : s.hold = none

/-- Steps 1 and 2 and the note of the decode begin a cascade. -/
theorem InCascade.beforeExecute {s : State} (hmem : s.mem.wf = true) (hrun : s.isRunning = true)
    (hrep : s.report = none) (hh : s.hold = none) : InCascade s.nextWord s.beforeExecute :=
  ⟨hmem, rfl, rfl, hrun, rfl, hrep, hh⟩

theorem InCascade.prepared {s : State} (hs : EngineInv s) (hrun : s.isRunning = true) (hh : s.hold = none) :
    InCascade s.nextWord s.prepared := by
  have hc := InCascade.beforeExecute (s := s.beginCall.raiseClock) (by simpa using hs.memory) (by simpa using hrun)
    (by simp) (by simpa using hh)
  rwa [State.nextWord_raiseClock, State.nextWord_beginCall] at hc

/-- A held call that goes on is back inside the cascade of the TRAP whose service holds (R114). -/
theorem EngineInv.resume {s : State} {h : Hold} (hs : EngineInv s) (hh : s.hold = some h) :
    ∃ w, InCascade w { s with hold := none } ∧ decodeWord w = h.service.instr := by
  obtain ⟨hrun, hlow, hrep, ⟨w, hlatch, hdec⟩, -⟩ := hs.hold h hh
  exact ⟨w, ⟨hs.memory, hlow, hs.latchSeen (by simp [hlatch]), hrun, hlatch, hrep, rfl⟩, hdec⟩

section Cascade
variable {w : Word} {s t : State}

/-- The execute step keeps all of the invariant but what it says about a held call. -/
theorem InCascade.engineInv (hs : InCascade w s) (hf : ExecFrame s t) (hhold : ∀ h, t.hold = some h → HoldInv h t) :
    EngineInv t := by
  obtain ⟨hclk, -, -, hseen⟩ := hf.clock
  have hseen : t.edgeSeen = true := hseen.trans hs.edgeSeen
  exact ⟨hf.memory hs.memory, fun _ => hseen, fun _ => hseen, hhold⟩

/-- A service that holds leaves a call in progress as `HoldInv` says, when its TRAP is the latched word. -/
theorem InCascade.holdInv {v : Held} (hs : InCascade w s) (hdec : decodeWord w = v.instr) (hf : ServiceFrame s t)
    (hv : HoldsOnlyAs v s t) : ∀ h, t.hold = some h → HoldInv h t := by
  intro h hh
  rcases hv with hnone | ⟨hsome, hrep, hrun, hends⟩
  · simp [hnone] at hh
  · obtain rfl : ⟨v, false⟩ = h := Option.some.inj (hsome.symm.trans hh)
    obtain ⟨hclk, -, hlatch, -⟩ := hf.frame.clock
    exact ⟨hrun.trans hs.running, hclk.trans hs.low, hrep.trans hs.noReport, ⟨w, hlatch.trans hs.latch, hdec⟩,
      hf.mem ▸ hends⟩

theorem InCascade.continueService {v : Held} (hs : InCascade w s) (hdec : decodeWord w = v.instr) :
    EngineInv (s.continueService v) :=
  have hf := ServiceFrame.continueService v s
  hs.engineInv hf.frame (hs.holdInv hdec hf (continueService_holds v s hs.noHold))

/-- The instruction of a service that can hold keeps what every service keeps. -/
theorem exec_heldInstr_frame {v : Held} (h : exec v.instr s = .next t) : ServiceFrame s t := by
  cases v <;> cases h
  · exact .getc s
  · exact .inWith _ s
  · exact .puts s

/-- The execute step of the latched word keeps the invariant: a call it leaves held is that word's own service. -/
theorem InCascade.exec (hs : InCascade w s) (he : exec (decodeWord w) s = .next t) : EngineInv t := by
  refine hs.engineInv (exec_frame he) ?_
  rcases exec_holds (decodeWord_wf w) hs.noHold he with hnone | ⟨v, hdec, hv⟩
  · simp [hnone]
  · exact hs.holdInv hdec (exec_heldInstr_frame (hdec ▸ he)) hv

end Cascade

theorem EngineInv.continueCall {s : State} {h : Hold} (hs : EngineInv s) (hh : s.hold = some h) :
    EngineInv (s.continueCall h) := by
  obtain ⟨w, hc, hdec⟩ := hs.resume hh
  have ht := hc.continueService hdec
  rcases s.continueCall_cases h with ⟨g, hg, e⟩ | ⟨hnone, e⟩ <;> rw [e]
  · exact ht.setByStep hg h.byStep
  · split
    · exact ht.raiseClock hnone
    · exact ht

/-- Settles O3: each of the three kinds of step keeps the invariant. -/
theorem stepKeepsInvariant : Obligations.StepKeepsInvariant := by
  intro s t hs hstep
  rcases step_cases s with ⟨hh, hrun, u, hu, e⟩ | ⟨hh, -, e⟩ | ⟨h, hh, e⟩ <;> cases e.symm.trans hstep
  · exact ((InCascade.prepared hs hrun hh).exec hu).endStep
  · exact (((hs.beginCall hh).raiseClock hh).recordFalling (by simpa using hh)).raiseClock (by simpa using hh)
  · exact hs.continueCall hh

end Sys2Proof.Machine
end

section
/-! What the execute step of each kind of instruction can do, said once, and which instructions can therefore change the
flags (R25), R7 (R21) and the PC (R23). -/

namespace Sys2Proof.Machine

/-- The register that `x[DR] <- v; SetCC(v)` of an instruction writes; none for an instruction that sets no flag (R25). -/
def resultReg : Instr → Option Reg
  | .addReg dr _ _ | .addImm dr _ _ | .andReg dr _ _ | .andImm dr _ _ | .notReg dr _ | .ld dr _ | .ldi dr _
  | .ldr dr _ _ | .lea dr _ => some dr
  | .br _ _ _ _ | .nop _ | .jmp _ | .ret | .jsr _ | .jsrr _ | .st _ _ | .sti _ _ | .str _ _ _ | .trap _ | .getc | .out
  | .puts | .in_ | .halt | .reserved1101 | .unlisted1000 => none

/-- The kinds of effect of an execute step, with the instructions that have it. -/
inductive ExecEffect (i : Instr) (s t : State) : Prop
  /-- ADD, AND, NOT, LD, LDI, LDR, LEA (R120 to R124, R130 to R133). -/
  | result (dr : Reg) (v : Word) (hi : resultReg i = some dr) (ht : t = s.writeResult dr v)
  /-- ST, STI, STR (R134 to R136). -/
  | store (a v : Word) (hi : i.rowClass = .ST ∨ i.rowClass = .STI ∨ i.rowClass = .STR) (ht : t = s.memWrite a v)
  /-- BR that is taken, JMP, RET (R140 to R142). -/
  | jump (target : Word) (hi : i.rowClass = .BR ∨ i.rowClass = .JMP) (ht : t = s.writePc target)
  /-- BR that is not taken (R140). -/
  | untaken (hi : i.rowClass = .BR) (ht : t = s)
  /-- JSR, JSRR (R143, R144). -/
  | call (target : Word) (hi : i.rowClass = .JSR ∨ i.rowClass = .JSRR) (ht : t = s.link.writePc target)
  /-- The TRAP services and the faulting opcodes (R150 to R158). -/
  | service (hi : i.rowClass = .TRAP ∨ i.rowClass = .RESERVED_1101 ∨ i.rowClass = .UNLISTED_1000)
      (ht : ServiceFrame s t)

theorem ExecEffect.branch {i : Instr} (hi : i.rowClass = .BR) (n z p : Bool) (off : BitVec 9) (s : State) :
    ExecEffect i s (s.branch n z p off) := by
  unfold State.branch
  split
  · exact .jump _ (.inl hi) rfl
  · exact .untaken hi rfl

theorem exec_effect {i : Instr} {s t : State} (h : exec i s = .next t) : ExecEffect i s t := by
  cases i with cases h
  | addReg | addImm | andReg | andImm | notReg | ld | ldi | ldr | lea => exact .result _ _ rfl rfl
  | st => exact .store _ _ (.inl rfl) rfl
  | sti => exact .store _ _ (.inr (.inl rfl)) rfl
  | str => exact .store _ _ (.inr (.inr rfl)) rfl
  | br | nop => exact .branch rfl _ _ _ _ s
  | jmp | ret => exact .jump _ (.inr rfl) rfl
  | jsr => exact .call _ (.inl rfl) rfl
  | jsrr => exact .call _ (.inr rfl) rfl
  | trap v => exact .service (.inl rfl) (.trap v s)
  | getc => exact .service (.inl rfl) (.getc s)
  | out => exact .service (.inl rfl) (.out s)
  | puts => exact .service (.inl rfl) (.puts s)
  | in_ => exact .service (.inl rfl) (.inWith _ s)
  | halt => exact .service (.inl rfl) (.halt s)
  | reserved1101 => exact .service (.inr (.inl rfl)) (.illegalOpcode s)
  | unlisted1000 => exact .service (.inr (.inr rfl)) (.illegalOpcode s)

section Writers
variable {i : Instr} {s t : State}

/-- Only an instruction with a result register changes the flags. -/
theorem resultReg_of_flags_ne (h : exec i s = .next t) (hne : t.flags ≠ s.flags) : ∃ dr, resultReg i = some dr := by
  cases exec_effect h with
  | result dr _ hi _ => exact ⟨dr, hi⟩
  | service _ hf => exact absurd hf.flags hne
  | store _ _ _ ht | jump _ _ ht | untaken _ ht | call _ _ ht => subst ht; exact absurd rfl hne

/-- Only a call and an instruction with the result register `r` change `x[r]`, but for R0, which services write. -/
theorem writer_of_reg_ne {r : Reg} (hr : r ≠ 0) (h : exec i s = .next t) (hne : t.reg r ≠ s.reg r) :
    (r = 7 ∧ (i.rowClass = .JSR ∨ i.rowClass = .JSRR)) ∨ resultReg i = some r := by
  cases exec_effect h with
  | result dr v hi ht =>
    subst ht
    by_cases hd : r = dr
    · exact .inr (hd ▸ hi)
    · exact absurd ((writeResult_spec s dr v).regs r hd) hne
  | call target hi ht =>
    subst ht
    by_cases h7 : r = 7
    · exact .inl ⟨h7, hi⟩
    · exact absurd (s.reg_writeReg_other r 7 s.pc h7) hne
  | service _ hf => exact absurd (hf.regs r hr) hne
  | store _ _ _ ht | jump _ _ ht | untaken _ ht => subst ht; exact absurd rfl hne

/-- A result register is the destination of one of the nine flag-setting forms. -/
theorem eq_of_resultReg {dr : Reg} (h : resultReg i = some dr) :
    (∃ a b, i = .addReg dr a b) ∨ (∃ a b, i = .addImm dr a b) ∨ (∃ a b, i = .andReg dr a b) ∨
    (∃ a b, i = .andImm dr a b) ∨ (∃ a, i = .notReg dr a) ∨ (∃ o, i = .ld dr o) ∨ (∃ o, i = .ldi dr o) ∨
    (∃ b o, i = .ldr dr b o) ∨ (∃ o, i = .lea dr o) := by
  cases i <;> cases h <;> simp

end Writers

/-- A held call that goes on changes no flag (R150). -/
theorem State.continueCall_flags (h : Hold) (s : State) : (s.continueCall h).flags = s.flags := by
  have hf := (ServiceFrame.continueService h.service { s with hold := none }).flags
  rcases s.continueCall_cases h with ⟨g, -, e⟩ | ⟨-, e⟩ <;> rw [e]
  · exact hf
  · split
    · exact (State.raiseClock_flags _).trans hf
    · exact hf

/-- Flags that are set stay set, whichever kind of step it is (R24). -/
theorem step_keeps_flags_set {s t : State} (hstep : step s = .next t) (hs : s.flags ≠ none) : t.flags ≠ none := by
  rcases step_cases s with ⟨-, -, u, hu, e⟩ | ⟨-, -, e⟩ | ⟨h, -, e⟩ <;> cases e.symm.trans hstep
  · rw [State.endStep_flags]
    exact (exec_frame hu).flags (by simpa using hs)
  · simpa using hs
  · rwa [State.continueCall_flags]

/-- Settles O20: the flag-setting rows are those with a result register. -/
theorem flagsChangeOnlyByWriters : Obligations.FlagsChangeOnlyByWriters := by
  refine ⟨fun i s t h hne => ?_, fun s t hstep hs => step_keeps_flags_set hstep hs⟩
  obtain ⟨dr, hi⟩ := resultReg_of_flags_ne h hne
  rcases eq_of_resultReg hi with ⟨_, _, rfl⟩ | ⟨_, _, rfl⟩ | ⟨_, _, rfl⟩ | ⟨_, _, rfl⟩ | ⟨_, rfl⟩ | ⟨_, rfl⟩ | ⟨_, rfl⟩ |
    ⟨_, _, rfl⟩ | ⟨_, rfl⟩ <;> simp [Instr.rowClass]

/-- Settles O32: R7 is written by the link of a call, or as a result register; a service writes R0 at most. -/
theorem linkRegisterChangesOnlyByCalls : Obligations.LinkRegisterChangesOnlyByCalls := by
  intro i s t h hne
  rcases writer_of_reg_ne (by decide) h hne with ⟨-, hcall | hcall⟩ | hi
  · exact .inl hcall
  · exact .inr (.inl hcall)
  · exact .inr (.inr (eq_of_resultReg hi))

/-- Settles O33: of the kinds of effect, only a jump and a call reach the PC. -/
theorem onlyControlInstructionsWritePc : Obligations.OnlyControlInstructionsWritePc := by
  intro i s t h hne
  cases exec_effect h with
  | jump _ hi _ => exact hi.elim .inl fun hjmp => .inr (.inl hjmp)
  | call _ hi _ => exact .inr (.inr hi)
  | service _ hf => exact absurd hf.pc hne
  | result _ _ _ ht | store _ _ _ ht | untaken _ ht => subst ht; exact absurd rfl hne

end Sys2Proof.Machine
end

section
/-! What reset leaves (R38, R39), what a step does to `is_running` (R29) and to the latch (R31), and the flags: their
sign (R26) and BR when none is true (R27). -/

namespace Sys2Proof.Machine

/-! ## Reset -/

@[simp] theorem State.reset_reg (r : Reg) : State.reset.reg r = 0 := by simp [State.reg, State.reset]

/-- Settles O1: a reset is the state after construction but for memory and the streams. -/
theorem resetValues : Obligations.ResetValues := by
  refine ⟨State.reset_reg, rfl, rfl, rfl, rfl, rfl, rfl, rfl, rfl, Memory.read_empty, rfl, rfl, ?_⟩
  intro preserve s hh
  have hop : resetOp preserve s = .next (s.afterReset preserve) := by simp [resetOp, betweenCalls, hh]
  have hmem (a : Word) : (s.afterReset preserve).mem.read a = if preserve then s.mem.read a else 0 := by
    cases preserve
    · exact Memory.read_empty a
    · rfl
  exact ⟨_, hop, State.reset_reg, rfl, rfl, rfl, rfl, rfl, rfl, rfl, rfl, hmem, rfl, rfl, ⟨rfl, rfl⟩, rfl, rfl, rfl⟩

/-- Settles O2: after reset memory is empty, `clk` is low, and nothing is latched or held. -/
theorem resetMeetsInvariant : Obligations.ResetMeetsInvariant where
  memory := by decide
  clockSeen := by simp [State.reset]
  latchSeen := by simp [State.reset]
  hold := by simp [State.reset]

/-! ## `is_running` and the latch over a step -/

section Running
variable {s t : State}

/-- No step sets `is_running`. -/
theorem step_isRunning (hstep : step s = .next t) (ht : t.isRunning = true) : s.isRunning = true := by
  rcases step_cases s with ⟨-, hrun, -⟩ | ⟨-, hrun, e⟩ | ⟨h, -, e⟩
  · exact hrun
  · cases e.symm.trans hstep
    simp [hrun] at ht
  · cases e.symm.trans hstep
    exact (s.continueCall_io h).1.symm.trans ht

/-- A held call that goes on leaves `is_running`. -/
theorem step_held_isRunning (hh : s.hold ≠ none) (hstep : step s = .next t) : t.isRunning = s.isRunning := by
  obtain ⟨h, hh⟩ := Option.ne_none_iff_exists'.1 hh
  cases (step_held hh).symm.trans hstep
  exact (s.continueCall_io h).1

end Running

/-- Settles O47: the three kinds of step; the one that runs clears `is_running` where its instruction does. -/
theorem onlyHaltAndIllegalOpcodeStop : Obligations.OnlyHaltAndIllegalOpcodeStop := by
  refine ⟨fun s t => step_isRunning, fun s t => step_held_isRunning, fun s t hh hrun hstep => ?_⟩
  obtain ⟨u, hu, e⟩ := step_running hh hrun
  cases e.symm.trans hstep
  rw [State.endStep_isRunning]
  exact exec_stops_iff (decodeWord_wf s.nextWord) hu (by simpa using hrun)

/-- Settles O16: the cascade latches the fetched word, and no instruction touches the latch. -/
theorem latchKeepsFetchedWord : Obligations.LatchKeepsFetchedWord := by
  intro s t hh hrun hstep
  obtain ⟨u, hu, e⟩ := step_running hh hrun
  obtain ⟨-, -, hlatch, -⟩ := (exec_frame hu).clock
  cases e.symm.trans hstep
  rw [State.endStep_instr, hlatch, State.prepared_instr, State.nextWord]

/-! ## The flags -/

theorem flagN_setCC (v : Word) (s : State) : (s.setCC v).flagN = true ↔ v.getLsbD 15 = true := by
  simp [State.flagN, signCategory_eq_N]

theorem flagZ_setCC (v : Word) (s : State) : (s.setCC v).flagZ = true ↔ v = 0 := by
  simp [State.flagZ, signCategory_eq_Z]

theorem signCategory_eq_P (v : Word) : signCategory v = .P ↔ v.getLsbD 15 = false ∧ v ≠ 0 := by
  unfold signCategory
  split
  · simp [*]
  · split <;> simp_all

theorem flagP_setCC (v : Word) (s : State) : (s.setCC v).flagP = true ↔ v.getLsbD 15 = false ∧ v ≠ 0 := by
  simp [State.flagP, signCategory_eq_P]

/-- Bit 15 of a word is the sign of its signed value. -/
theorem getLsbD_15_iff (v : Word) : v.getLsbD 15 = true ↔ v.toInt < 0 := by
  rw [← BitVec.msb_eq_getLsbD_last, BitVec.msb_eq_toInt, decide_eq_true_iff]

theorem eq_zero_iff_toInt (v : Word) : v = 0 ↔ v.toInt = 0 := by
  rw [← BitVec.toInt_inj]
  rfl

/-- Settles O19: bit 15 and zero are the sign of the signed value. -/
theorem signCategoryIsTheSign : Obligations.SignCategoryIsTheSign := by
  intro v s
  have hpos : (s.setCC v).flagP = true ↔ 0 < v.toInt := by
    rw [flagP_setCC, ← Bool.not_eq_true, getLsbD_15_iff, Ne, eq_zero_iff_toInt]
    omega
  exact ⟨(flagN_setCC v s).trans (getLsbD_15_iff v), (flagZ_setCC v s).trans (eq_zero_iff_toInt v), hpos,
    flagN_setCC v s, flagZ_setCC v s⟩

theorem branchTaken_of_no_flag {s : State} (h : s.flags = none) (n z p : Bool) : branchTaken n z p s = false := by
  simp [← Bool.not_eq_true, branchTaken_iff, h]

/-- Settles O29: with no flag true BR's test fails, and an untaken branch changes nothing. -/
theorem noFlagNoBranch : Obligations.NoFlagNoBranch := by
  refine ⟨fun n z p off9 s h => ?_, rfl⟩
  simp [exec, execBr, State.branch, branchTaken_of_no_flag h]

end Sys2Proof.Machine
end

section
/-! Memory (R50 to R54): what a read tells, one canonical form per contents, what writes it, and that a word fetched from
it runs (R67). -/

namespace Sys2Proof.Machine

/-- Settles O24: the laws of a read after a write, and that a write keeps the canonical form. -/
theorem readGivesLastWrite : Obligations.ReadGivesLastWrite :=
  fun m a b v => ⟨m.read_write_same a v, m.read_write_other a b v, m.wf_write a v⟩

/-! ## Reads determine a canonical memory -/

/-- A byte that is not zero is listed. -/
theorem Memory.mem_of_byteAt_ne {m : Memory} {k : Nat} (h : m.byteAt k ≠ 0) : (k, m.byteAt k) ∈ m := by
  induction m with
  | nil => exact absurd rfl h
  | cons c rest ih =>
    obtain ⟨a, b⟩ := c
    by_cases hak : a = k
    · simp [Memory.byteAt, hak]
    · simp only [Memory.byteAt, hak, if_false] at h ⊢
      exact List.mem_cons_of_mem _ (ih h)

/-- Under rising keys a listed byte is the one that is read: no other cell has its key. -/
theorem Memory.byteAt_of_mem {m : Memory} {c : Host.Cell} (hm : m.Pairwise (fun c d => c.1 < d.1)) (hc : c ∈ m) :
    m.byteAt c.1 = c.2 := by
  induction m with
  | nil => cases hc
  | cons d rest ih =>
    obtain ⟨hd, hrest⟩ := List.pairwise_cons.1 hm
    rcases List.mem_cons.1 hc with rfl | hc
    · exact if_pos rfl
    · exact (if_neg (hd c hc).ne).trans (ih hrest hc)

/-- Each half of a word is told by the word. -/
theorem halves_inj {a b c d : Byte} (h : a ++ b = c ++ d) : a = c ∧ b = d :=
  ⟨by simpa only [BitVec.extractLsb'_append_eq_left] using congrArg (BitVec.extractLsb' 8 8) h,
    by simpa only [BitVec.extractLsb'_append_eq_right] using congrArg (BitVec.extractLsb' 0 8) h⟩

/-- Every byte is a half of the word at half its cell number. -/
theorem Memory.byteAt_eq_of_read_eq {m n : Memory} (h : ∀ a, m.read a = n.read a) {k : Nat}
    (hk : k < 2 * Config.memWords) : m.byteAt k = n.byteAt k := by
  have hlt : k / 2 < 2 ^ 16 := by simp only [Config.memWords] at hk; omega
  obtain ⟨hhigh, hlow⟩ := halves_inj (h (BitVec.ofNat 16 (k / 2)))
  rw [BitVec.toNat_ofNat, Nat.mod_eq_of_lt hlt] at hhigh hlow
  rcases Nat.mod_two_eq_zero_or_one k with heven | hodd
  · rwa [show 2 * (k / 2) = k by omega] at hhigh
  · rwa [show 2 * (k / 2) + 1 = k by omega] at hlow

/-- Every cell of a canonical memory is a cell of any memory that reads alike. -/
theorem Memory.subset_of_read_eq {m n : Memory} (hm : m.wf = true) (h : ∀ a, m.read a = n.read a) : m ⊆ n := by
  intro c hc
  obtain ⟨hsorted, hcells⟩ := m.wf_iff.1 hm
  obtain ⟨hnonzero, hlt⟩ := hcells c hc
  have hbyte : n.byteAt c.1 = c.2 := (Memory.byteAt_eq_of_read_eq h hlt).symm.trans (Memory.byteAt_of_mem hsorted hc)
  have hmem := Memory.mem_of_byteAt_ne (m := n) (k := c.1) (hbyte ▸ hnonzero)
  rwa [hbyte] at hmem

/-- Settles O25: each memory lists the other's cells, and rising keys leave one order for them. -/
theorem canonicalMemoriesAreEqual : Obligations.CanonicalMemoriesAreEqual := by
  intro m n hm hn h
  have hasymm : Std.Asymm (fun c d : Host.Cell => c.1 < d.1) := ⟨fun _ _ hcd => hcd.asymm⟩
  exact List.Subset.antisymm_of_pairwise (m.wf_iff.1 hm).1 (n.wf_iff.1 hn).1
    (Memory.subset_of_read_eq hm h) (Memory.subset_of_read_eq hn fun a => (h a).symm)

/-! ## What writes memory (R54) -/

/-- Of the kinds of effect, only a store reaches memory. -/
theorem store_of_mem_ne {i : Instr} {s t : State} (h : exec i s = .next t) (hne : t.mem ≠ s.mem) :
    i.rowClass = .ST ∨ i.rowClass = .STI ∨ i.rowClass = .STR := by
  cases exec_effect h with
  | store _ _ hi _ => exact hi
  | service _ hf => exact absurd hf.mem hne
  | result _ _ _ ht | jump _ _ ht | untaken _ ht | call _ _ ht => subst ht; exact absurd rfl hne

/-- A held call that goes on leaves memory (R150). -/
theorem State.continueCall_mem (h : Hold) (s : State) : (s.continueCall h).mem = s.mem := by
  have hf := (ServiceFrame.continueService h.service { s with hold := none }).mem
  rcases s.continueCall_cases h with ⟨g, -, e⟩ | ⟨-, e⟩ <;> rw [e]
  · exact hf
  · split
    · exact (State.raiseClock_mem _).trans hf
    · exact hf

/-- A step that changes memory runs an engine whose fetched word does. -/
theorem exec_of_step_mem_ne {s t : State} (hstep : step s = .next t) (hne : t.mem ≠ s.mem) :
    s.isRunning = true ∧ ∃ u v, exec (decodeWord s.nextWord) u = .next v ∧ v.mem ≠ u.mem := by
  rcases step_cases s with ⟨-, hrun, v, hv, e⟩ | ⟨-, -, e⟩ | ⟨h, -, e⟩ <;> cases e.symm.trans hstep
  · exact ⟨hrun, s.prepared, v, hv, by simpa using hne⟩
  · exact absurd (by simp) hne
  · exact absurd (s.continueCall_mem h) hne

/-- A clock edge that changes memory runs an engine whose fetched word does. -/
theorem exec_of_setClock_mem_ne {b : Bool} {s t : State} (hclk : setClock b s = .next t) (hne : t.mem ≠ s.mem) :
    s.isRunning = true ∧ ∃ u v, exec (decodeWord s.nextWord) u = .next v ∧ v.mem ≠ u.mem := by
  obtain ⟨-, ⟨-, rfl⟩ | ⟨-, -, rfl⟩ | ⟨-, -, -, rfl⟩ | ⟨-, -, hrun, ht⟩⟩ := setClock_cases hclk
  · exact absurd rfl hne
  · exact absurd (by simp) hne
  · exact absurd rfl hne
  · exact ⟨hrun, s.beginCall.beforeExecute, t, ht, hne⟩

/-- An operation that needs the engine between calls answers a next state only as its body does. -/
theorem betweenCalls_next {op : State → Host.Outcome State Fault Refusal} {s t : State}
    (h : betweenCalls op s = .next t) : op s = .next t := by
  unfold betweenCalls at h
  split at h
  · cases h
  · exact h

/-- Settles O27: a store is the only effect of the execute step on memory, and nothing else in a call has one. -/
theorem onlyStoresAndLoaderWriteMemory : Obligations.OnlyStoresAndLoaderWriteMemory := by
  refine ⟨fun i s t => store_of_mem_ne, fun s t hcall hne => ?_,
    fun s t => ⟨fun b h => ?_, fun h => ?_, fun h => ?_, fun _ => rfl, fun _ => rfl, fun _ _ => rfl⟩⟩
  · obtain ⟨hrun, u, v, hexec, hmem⟩ :=
      hcall.elim (exec_of_step_mem_ne · hne) fun ⟨_, hclk⟩ => exec_of_setClock_mem_ne hclk hne
    exact ⟨hrun, store_of_mem_ne hexec hmem⟩
  all_goals
    cases betweenCalls_next h
    rfl

/-! ## A word fetched from memory runs (R53, R67) -/

/-- A step of a running engine, where the fetched word's instruction answers `u` and holds no call. -/
theorem step_fetched {i : Instr} {s u : State} (hh : s.hold = none) (hrun : s.isRunning = true)
    (hi : decodeWord s.nextWord = i) (hexec : exec i s.prepared = .next u) (hu : u.hold = none) :
    step s = .next u.raiseClock := by
  obtain ⟨t, ht, hstep⟩ := step_running hh hrun
  cases (hi ▸ ht).symm.trans hexec
  rwa [u.endStep_hold_none hu] at hstep

theorem exec_nop (off : BitVec 9) (s : State) : exec (.nop off) s = .next s := by
  simp [exec, execNop, State.branch, branchTaken]

/-- Settles O26: the zero word is a NOP, so the step only fetches and increments the PC. -/
theorem unwrittenMemoryRunsAsNops : Obligations.UnwrittenMemoryRunsAsNops := by
  refine ⟨Memory.read_empty, fun s t h a => ?_, fun m a b v hzero hab => ?_, fun s hh hrun hzero => ?_⟩
  · cases betweenCalls_next h
    exact Memory.read_empty a
  · rw [m.read_write_other b a v hab, hzero]
  · have hnop : decodeWord s.nextWord = .nop 0 := by rw [State.nextWord, hzero]; decide
    have hstep := step_fetched hh hrun hnop (exec_nop 0 s.prepared) (by simpa using hh)
    refine ⟨_, hstep, ?_⟩
    simp [KeepsRegs, KeepsMemory, KeepsStreams, KeepsInput, KeepsOutput, hrun, hh]

/-- ST with offset 0 stores at the incremented PC. -/
theorem exec_st_zero (sr : Reg) (s : State) : exec (.st sr 0) s = .next (s.memWrite s.pc (s.reg sr)) := by
  simp [exec, execSt, eaPc9]

/-- Settles O17: the store goes to the incremented PC, and the next step latches the word it fetches there. -/
theorem storedWordRunsNext : Obligations.StoredWordRunsNext := by
  intro s sr hh hrun hword
  have hst : decodeWord s.nextWord = .st sr 0 := by
    rw [State.nextWord, hword]
    exact Laws.RoundTrip.st sr 0 rfl
  have hstep := step_fetched hh hrun hst (exec_st_zero sr s.prepared) (by simpa using hh)
  have hlatch := latchKeepsFetchedWord s _ hh hrun hstep
  refine ⟨_, hstep, by simp, by simp, hword ▸ hlatch, by simpa using hh, by simpa using hrun, fun u hu => ?_⟩
  have hnext := latchKeepsFetchedWord _ u (by simpa using hh) (by simpa using hrun) hu
  simpa using hnext

end Sys2Proof.Machine
end

section
/-! The loader (R61 to R63): the words of a sequence from the origin on, when the sequence passes the end, and the forms
of an image. -/

namespace Sys2Proof.Machine

/-! ## A sequence of words -/

/-- An address that no word of the sequence goes to reads as before. -/
theorem Memory.read_writeAll_other (words : List Word) (m : Memory) (a b : Word)
    (h : ∀ k, k < words.length → b ≠ a + BitVec.ofNat 16 k) : (m.writeAll a words).read b = m.read b := by
  induction words generalizing m a with
  | nil => rfl
  | cons w rest ih =>
    have hrest (k : Nat) (hk : k < rest.length) : b ≠ a + 1 + BitVec.ofNat 16 k :=
      addr_succ a k ▸ h (k + 1) (Nat.succ_lt_succ hk)
    have hhead : b ≠ a := by simpa using h 0 (Nat.succ_pos _)
    exact (ih _ _ hrest).trans (m.read_write_other a b w hhead)

/-- Fewer than 65536 addresses after `a` do not come round to `a`. -/
theorem ne_addr_after (a : Word) {k : Nat} (hk : k + 1 < 65536) : a ≠ a + 1 + BitVec.ofNat 16 k := by
  rw [← addr_succ]
  bv_omega

/-- Word `k` of the sequence reads at its own address, unless the sequence goes round memory and a later word goes there
too. -/
theorem Memory.read_writeAll (words : List Word) (m : Memory) (a : Word) (k : Nat) (hk : k < words.length)
    (hlast : words.length ≤ k + 65536) : (m.writeAll a words).read (a + BitVec.ofNat 16 k) = words[k] := by
  induction words generalizing m a k with
  | nil => exact absurd hk (Nat.not_lt_zero k)
  | cons w rest ih =>
    rw [List.length_cons] at hk hlast
    cases k with
    | zero =>
      have hother := Memory.read_writeAll_other rest (m.write a w) (a + 1) a fun j hj => ne_addr_after a (by omega)
      simpa [Memory.writeAll] using hother
    | succ j =>
      rw [addr_succ]
      exact ih (m.write a w) (a + 1) j (by omega) (by omega)

/-! ## One load -/

theorem overflows_iff (origin : Word) (words : List Word) :
    overflows origin words = true ↔ 65536 < origin.toNat + words.length := decide_eq_true_iff

section Load
variable {s : State} (hh : s.hold = none) (hrun : s.isRunning = false)
include hh hrun

/-- The load fails exactly when the sequence passes the end without leave (R62). -/
theorem loadImage_overflow {origin : Word} {words : List Word} (h : 65536 < origin.toNat + words.length) :
    loadImage origin words false s = .fault .addressOverflow := by
  simp [loadImage, betweenCalls, hh, hrun, (overflows_iff origin words).2 h]

/-- Any other load writes the words from the origin on and sets the PC (R61). -/
theorem loadImage_next {origin : Word} {words : List Word} {wrap : Bool}
    (h : wrap = true ∨ origin.toNat + words.length ≤ 65536) :
    loadImage origin words wrap s = .next { s with mem := s.mem.writeAll origin words, pc := origin } := by
  have hfits : (overflows origin words && !wrap) = false := by
    rcases h with rfl | hle
    · simp
    · have hnot : ¬ overflows origin words = true := fun h => absurd ((overflows_iff origin words).1 h) (by omega)
      simp [hnot]
  simp [loadImage, betweenCalls, hh, hrun, hfits]

end Load

/-- Settles O52: by induction on the sequence, each word stays where it was put unless the sequence comes round. -/
theorem loaderWritesConsecutively : Obligations.LoaderWritesConsecutively := by
  intro s origin words wrap hh hrun hfits
  exact ⟨_, loadImage_next hh hrun hfits, rfl, s.mem.read_writeAll words origin,
    fun a => s.mem.read_writeAll_other words origin a, rfl⟩

/-- Settles O53: a load is one of the two, the sequence passing the end or not. -/
theorem loaderOverflowsExactlyPastTheEnd : Obligations.LoaderOverflowsExactlyPastTheEnd := by
  refine fun s origin words hh hrun => ⟨⟨fun hfault => ?_, loadImage_overflow hh hrun⟩, _,
    loadImage_next hh hrun (.inl rfl)⟩
  by_contra hle
  cases hfault.symm.trans (loadImage_next hh hrun (.inr (Nat.not_lt.1 hle)))

/-! ## The forms of an image (R63) -/

theorem byte_of_digits (b : Byte) : b.extractLsb' 4 4 ++ b.extractLsb' 0 4 = b :=
  BitVec.extractLsb'_append_extractLsb'

/-- The words of their own bytes, high byte first. -/
theorem wordsOfBytes_flatMap (words : List Word) :
    wordsOfBytes (words.flatMap fun w => [w.extractLsb' 8 8, w.extractLsb' 0 8]) = some words := by
  induction words with
  | nil => rfl
  | cons w rest ih => simp [wordsOfBytes, ih, wordOfBytes, word_of_halves]

/-- The bytes of their own hexadecimal digits, high digit first. -/
theorem bytesOfDigits_flatMap (bytes : List Byte) :
    bytesOfDigits (bytes.flatMap fun b => [b.extractLsb' 4 4, b.extractLsb' 0 4]) = some bytes := by
  induction bytes with
  | nil => rfl
  | cons b rest ih => simp [bytesOfDigits, ih, byte_of_digits]

/-- An odd number of bytes is no sequence of words. -/
theorem wordsOfBytes_odd {bytes : List Byte} (h : bytes.length % 2 = 1) : wordsOfBytes bytes = none := by
  induction bytes using wordsOfBytes.induct with
  | case1 => cases h
  | case2 => rfl
  | case3 hi lo rest ih =>
    have hrest : rest.length % 2 = 1 := by simp only [List.length_cons] at h; omega
    simp [wordsOfBytes, ih hrest]

/-- Settles O54: the byte and digit forms are read back, and a byte image odd or empty is refused. -/
theorem byteImageLoadsItsWords : Obligations.ByteImageLoadsItsWords := by
  refine ⟨fun words wrap s => ?_, fun _ _ _ _ => rfl, fun bytes wrap s => ?_, fun bytes wrap s h => ?_⟩
  · simp only [loadBytes, wordsOfBytes_flatMap]
  · simp only [loadHex, bytesOfDigits_flatMap]
  · rcases h with hodd | rfl
    · simp only [loadBytes, wordsOfBytes_odd hodd]
    · rfl

end Sys2Proof.Machine
end

section
/-! The encoder and the decoder agree (R82, R88, R96). The word of a decoded instruction is the word it was decoded from
as the standard assembler writes it, with the ignored bits filled in; the other statements on ignored bits follow. -/

namespace Sys2Proof

/-! ## From an instruction to its word and back -/

/-- Settles O6: each constructor is read back from its own format. -/
theorem decodeEncodeAgree : Obligations.DecodeEncodeAgree := by
  intro i
  cases i with
  | addReg dr sr1 sr2 => exact Laws.RoundTrip.addReg dr sr1 sr2
  | addImm dr sr1 imm5 => exact Laws.RoundTrip.addImm dr sr1 imm5
  | andReg dr sr1 sr2 => exact Laws.RoundTrip.andReg dr sr1 sr2
  | andImm dr sr1 imm5 => exact Laws.RoundTrip.andImm dr sr1 imm5
  | notReg dr sr => exact Laws.RoundTrip.notReg dr sr
  | br n z p offset9 => exact Laws.RoundTrip.br n z p offset9
  | nop offset9 => exact Laws.RoundTrip.nop offset9
  | jmp baseR => exact Laws.RoundTrip.jmp baseR
  | ret => exact Laws.RoundTrip.ret
  | jsr offset11 => exact Laws.RoundTrip.jsr offset11
  | jsrr baseR => exact Laws.RoundTrip.jsrr baseR
  | ld dr offset9 => exact Laws.RoundTrip.ld dr offset9
  | ldi dr offset9 => exact Laws.RoundTrip.ldi dr offset9
  | ldr dr baseR offset6 => exact Laws.RoundTrip.ldr dr baseR offset6
  | lea dr offset9 => exact Laws.RoundTrip.lea dr offset9
  | st sr offset9 => exact Laws.RoundTrip.st sr offset9
  | sti sr offset9 => exact Laws.RoundTrip.sti sr offset9
  | str sr baseR offset6 => exact Laws.RoundTrip.str sr baseR offset6
  | trap trapvect8 => exact Laws.RoundTrip.trap trapvect8
  | getc => exact Laws.RoundTrip.getc
  | out => exact Laws.RoundTrip.out
  | puts => exact Laws.RoundTrip.puts
  | in_ => exact Laws.RoundTrip.in_
  | halt => exact Laws.RoundTrip.halt
  | reserved1101 => exact Laws.RoundTrip.reserved1101
  | unlisted1000 => exact Laws.RoundTrip.unlisted1000

/-- Settles O5: the eleven words are those of well-formed instructions. -/
theorem sampleWordsDecode : Obligations.SampleWordsDecode :=
  ⟨decodeEncodeAgree (.addReg 2 0 1) rfl, decodeEncodeAgree (.addImm 1 1 0b11111) rfl,
    decodeEncodeAgree (.andReg 3 1 2) rfl, decodeEncodeAgree (.notReg 1 0) rfl, decodeEncodeAgree (.ld 2 5) rfl,
    decodeEncodeAgree (.str 1 6 2) rfl, decodeEncodeAgree (.br false true false 0b111111101) rfl,
    decodeEncodeAgree (.jsr 4) rfl, decodeEncodeAgree .ret rfl, decodeEncodeAgree .halt rfl,
    decodeEncodeAgree .reserved1101 rfl⟩

/-! ## Each format, filled from the fields of a word -/

@[simp] theorem regBits_regField (w : Word) (lo : Nat) : regBits (regField w lo) = bits w lo 3 := rfl

section Formats
variable {w : Word} {op : Opcode}

/-- The decoder's opcode is written back as the four bits it was read from. -/
theorem bits_of_opcode (hop : Opcode.ofBits (bits w 12 4) = op) : op.bits = bits w 12 4 := by
  rw [← hop, Opcode.bits_ofBits]

theorem fmtBr_of_fields (hop : Opcode.ofBits (bits w 12 4) = .br) :
    fmtBr (flagBit w 11) (flagBit w 10) (flagBit w 9) (bits w 0 9) = w := by
  ext i hi
  simp only [fmtBr, flagBit, bits_of_opcode hop, bits]
  grind

theorem fmtJsr_of_fields (hop : Opcode.ofBits (bits w 12 4) = .jsr) (h11 : flagBit w 11 = true) :
    fmtJsr (bits w 0 11) = w := by
  ext i hi
  simp only [fmtJsr, bits_of_opcode hop, bits, flagBit] at h11 ⊢
  grind

theorem fmtTrap_of_fields (hop : Opcode.ofBits (bits w 12 4) = .trap) : fmtTrap (bits w 0 8) = w &&& 0xF0FF := by
  have hmask : ∀ (i : Nat) (h : i < 16), (0xF0FF#16)[i] = decide (i < 8 ∨ 12 ≤ i) := by decide
  ext i hi
  simp only [fmtTrap, bits_of_opcode hop, bits, BitVec.getElem_and]
  grind

variable (hop : Opcode.ofBits (bits w 12 4) = op)
include hop

theorem fmtOpR_of_fields (h5 : flagBit w 5 = false) :
    fmtOpR op (regField w 9) (regField w 6) (regField w 0) = w &&& 0xFFE7 := by
  have hmask : ∀ (i : Nat) (h : i < 16), (0xFFE7#16)[i] = decide (i ≠ 3 ∧ i ≠ 4) := by decide
  ext i hi
  simp only [fmtOpR, bits_of_opcode hop, regBits_regField, bits, flagBit, BitVec.getElem_and] at h5 ⊢
  grind

theorem fmtOpI_of_fields (h5 : flagBit w 5 = true) :
    fmtOpI op (regField w 9) (regField w 6) (bits w 0 5) = w := by
  ext i hi
  simp only [fmtOpI, bits_of_opcode hop, regBits_regField, bits, flagBit] at h5 ⊢
  grind

theorem fmtPc9_of_fields : fmtPc9 op (regField w 9) (bits w 0 9) = w := by
  ext i hi
  simp only [fmtPc9, bits_of_opcode hop, regBits_regField, bits]
  grind

theorem fmtBase6_of_fields : fmtBase6 op (regField w 9) (regField w 6) (bits w 0 6) = w := by
  ext i hi
  simp only [fmtBase6, bits_of_opcode hop, regBits_regField, bits]
  grind

/-- Format NOT as assembled: its six ignored bits are ones. -/
theorem fmtBase6_ones_of_fields :
    fmtBase6 op (regField w 9) (regField w 6) 0b111111#6 = w ||| 0x003F := by
  have hmask : ∀ (i : Nat) (h : i < 16), (0x003F#16)[i] = decide (i < 6) := by decide
  have hones : ∀ (i : Nat) (h : i < 6), (0b111111#6)[i] = true := by decide
  ext i hi
  simp only [fmtBase6, bits_of_opcode hop, regBits_regField, bits, BitVec.getElem_or]
  grind

theorem fmtJump_jmp_of_fields : fmtJump op (regField w 6) = w &&& 0xF1C0 := by
  have hmask : ∀ (i : Nat) (h : i < 16), (0xF1C0#16)[i] = decide (12 ≤ i ∨ 6 ≤ i ∧ i < 9) := by decide
  ext i hi
  simp only [fmtJump, bits_of_opcode hop, regBits_regField, bits, BitVec.getElem_and]
  grind

theorem fmtJump_jsrr_of_fields (h11 : flagBit w 11 = false) : fmtJump op (regField w 6) = w &&& 0xF9C0 := by
  have hmask : ∀ (i : Nat) (h : i < 16), (0xF9C0#16)[i] = decide (11 ≤ i ∨ 6 ≤ i ∧ i < 9) := by decide
  ext i hi
  simp only [fmtJump, bits_of_opcode hop, regBits_regField, bits, flagBit, BitVec.getElem_and] at h11 ⊢
  grind

theorem fmtNone_of_fields : fmtNone op = w &&& 0xF000 := by
  rw [fmtNone, bits_of_opcode hop, and_opcode]

end Formats

/-! ## The word of a decoded instruction -/

/-- The ignored bits as the standard assembler writes them: ones for NOT, zeros elsewhere (R82, last column). -/
def RowClass.filler : RowClass → Word
  | .NOT => 0x003F
  | _ => 0

/-- A word of the row with its ignored bits as the standard assembler writes them. -/
def RowClass.assembled (c : RowClass) (w : Word) : Word := (w &&& ~~~c.ignoredBits) ||| c.filler

theorem RowClass.filler_and_not_ignoredBits (c : RowClass) : c.filler &&& ~~~c.ignoredBits = 0 := by cases c <;> rfl

theorem RowClass.assembled_eq (c : RowClass) (w : Word) : c.assembled w =
    match c with
    | .ADD_REG | .AND_REG => w &&& 0xFFE7
    | .NOT => w ||| 0x003F
    | .JMP => w &&& 0xF1C0
    | .JSRR => w &&& 0xF9C0
    | .TRAP => w &&& 0xF0FF
    | .RESERVED_1101 | .UNLISTED_1000 => w &&& 0xF000
    | .ADD_IMM | .AND_IMM | .BR | .JSR | .LD | .LDI | .LDR | .LEA | .ST | .STI | .STR => w := by
  cases c with
  | NOT =>
    have hmask : ∀ (i : Nat) (h : i < 16), (~~~0x003F#16)[i] = !(0x003F#16)[i] := by decide
    ext i hi
    simp only [assembled, ignoredBits, filler, BitVec.getElem_or, BitVec.getElem_and]
    grind
  | ADD_REG | AND_REG | JMP | JSRR | TRAP | RESERVED_1101 | UNLISTED_1000 => exact BitVec.or_zero
  | ADD_IMM | AND_IMM | BR | JSR | LD | LDI | LDR | LEA | ST | STI | STR =>
    exact BitVec.or_zero.trans BitVec.and_allOnes

/-- Only ignored bits are filled in. -/
theorem RowClass.assembled_and_not_ignoredBits (c : RowClass) (w : Word) :
    c.assembled w &&& ~~~c.ignoredBits = w &&& ~~~c.ignoredBits := by
  ext i hi
  have hfill := congrArg (·[i]) c.filler_and_not_ignoredBits
  simp only [assembled, BitVec.getElem_and, BitVec.getElem_or] at hfill ⊢
  grind

theorem encode_brInstr (n z p : Bool) (off : BitVec 9) : encode (brInstr n z p off) = fmtBr n z p off := by
  unfold brInstr
  split
  · rfl
  · simp_all [encode]

theorem encode_jmpInstr (b : Reg) : encode (jmpInstr b) = fmtJump .jmp b := by
  unfold jmpInstr
  split
  · simp_all [encode]
  · rfl

theorem encode_trapInstr (v : BitVec 8) : encode (trapInstr v) = fmtTrap v := by
  unfold trapInstr
  split_ifs <;> simp_all [encode]

/-- By the decoder's cases: each format puts the fields back where they were read. -/
theorem encode_decodeWord (w : Word) : encode (decodeWord w) = (decodeWord w).rowClass.assembled w := by
  unfold decodeWord
  generalize hop : Opcode.ofBits (bits w 12 4) = op
  cases op with
  | br => simp [encode_brInstr, fmtBr_of_fields hop, RowClass.assembled_eq]
  | jmp => simp [encode_jmpInstr, fmtJump_jmp_of_fields hop, RowClass.assembled_eq]
  | trap => simp [encode_trapInstr, fmtTrap_of_fields hop, RowClass.assembled_eq]
  | add | and =>
    cases h5 : flagBit w 5
    · simp [encode, Instr.rowClass, fmtOpR_of_fields hop h5, RowClass.assembled_eq]
    · simp [encode, Instr.rowClass, fmtOpI_of_fields hop h5, RowClass.assembled_eq]
  | jsr =>
    cases h11 : flagBit w 11
    · simp [encode, Instr.rowClass, fmtJump_jsrr_of_fields hop h11, RowClass.assembled_eq]
    · simp [encode, Instr.rowClass, fmtJsr_of_fields hop h11, RowClass.assembled_eq]
  | ld | ldi | lea | st | sti => simp [encode, Instr.rowClass, fmtPc9_of_fields hop, RowClass.assembled_eq]
  | ldr | str => simp [encode, Instr.rowClass, fmtBase6_of_fields hop, RowClass.assembled_eq]
  | not => simp [encode, Instr.rowClass, fmtBase6_ones_of_fields hop, RowClass.assembled_eq]
  | reserved1101 | unlisted1000 => simp [encode, Instr.rowClass, fmtNone_of_fields hop, RowClass.assembled_eq]

theorem decodeWord_encode_decodeWord (w : Word) : decodeWord (encode (decodeWord w)) = decodeWord w :=
  decodeEncodeAgree _ (Machine.decodeWord_wf w)

/-- Settles O7: a decoded instruction's own word is the word read, with its ignored bits filled in. -/
theorem encodeDecodeAgree : Obligations.EncodeDecodeAgree := fun w =>
  ⟨Machine.decodeWord_wf w, decodeWord_encode_decodeWord w, by
    rw [encode_decodeWord, RowClass.assembled_and_not_ignoredBits]⟩

/-! ## The main rows -/

/-- A word with no more than the bits that select a row: the opcode, bit 11 and bit 5 (R81, R85, R86). -/
def selectorWord (op : BitVec 4) (b11 b5 : Bool) : Word := op ++ BitVec.ofBool b11 ++ 0#5 ++ BitVec.ofBool b5 ++ 0#5

theorem selectorWord_fields (op : BitVec 4) (b11 b5 : Bool) :
    bits (selectorWord op b11 b5) 12 4 = op ∧ flagBit (selectorWord op b11 b5) 11 = b11 ∧
      flagBit (selectorWord op b11 b5) 5 = b5 := by
  refine ⟨?_, ?_, ?_⟩ <;> simp only [bits, flagBit, selectorWord] <;> grind

theorem and_selector (w : Word) : w &&& 0xF820 = selectorWord (bits w 12 4) (flagBit w 11) (flagBit w 5) := by
  have hmask : ∀ (i : Nat) (h : i < 16), (0xF820#16)[i] = (decide (11 ≤ i) || decide (i = 5)) := by decide
  ext i hi
  simp only [selectorWord, bits, flagBit, BitVec.getElem_and]
  grind

theorem rowClass_decodeWord_and_selector (w : Word) :
    (decodeWord (w &&& 0xF820)).rowClass = (decodeWord w).rowClass := by
  obtain ⟨hop, h11, h5⟩ := selectorWord_fields (bits w 12 4) (flagBit w 11) (flagBit w 5)
  rw [and_selector, rowClass_decodeWord, rowClass_decodeWord, hop, h11, h5]

theorem selector_and_mask : ∀ r ∈ mainRows, 0xF820 &&& r.mask = r.mask := by decide

theorem TableRow.admits_and_selector {r : TableRow} (hr : r ∈ mainRows) (w : Word) :
    r.admits (w &&& 0xF820) = r.admits w := by
  rw [admits, BitVec.and_assoc, selector_and_mask r hr, ← admits]

theorem selectorWord_matches_one_row : ∀ op b11 b5,
    (mainRows.filter fun r => r.admits (selectorWord op b11 b5)).map TableRow.cls =
      [(decodeWord (selectorWord op b11 b5)).rowClass] := by decide

/-- Settles O8: neither the rows' masks nor the class see more than the selecting bits, and of those there are 64. -/
theorem everyWordMatchesOneMainRow : Obligations.EveryWordMatchesOneMainRow := by
  refine ⟨rfl, fun w => ?_⟩
  rw [← rowClass_decodeWord_and_selector w,
    List.filter_congr fun r hr => (TableRow.admits_and_selector hr w).symm, and_selector]
  exact selectorWord_matches_one_row _ _ _

theorem cls_of_admits {r : TableRow} {w : Word} (hr : r ∈ mainRows) (hadm : r.admits w = true) :
    r.cls = (decodeWord w).rowClass := by
  have hmem : r.cls ∈ (mainRows.filter (fun r => r.admits w)).map TableRow.cls :=
    List.mem_map_of_mem (List.mem_filter.2 ⟨hr, hadm⟩)
  rwa [everyWordMatchesOneMainRow.2 w, List.mem_singleton] at hmem

theorem exists_row_admits (w : Word) : ∃ r ∈ mainRows, r.admits w = true ∧ r.cls = (decodeWord w).rowClass := by
  have hmem : (decodeWord w).rowClass ∈ (mainRows.filter (fun r => r.admits w)).map TableRow.cls := by
    rw [everyWordMatchesOneMainRow.2 w]
    exact List.mem_singleton_self _
  obtain ⟨r, hr, hcls⟩ := List.mem_map.1 hmem
  obtain ⟨hrow, hadm⟩ := List.mem_filter.1 hr
  exact ⟨r, hrow, hadm, hcls⟩

theorem not_ignoredBits_and_mask : ∀ r ∈ mainRows, ~~~r.cls.ignoredBits &&& r.mask = r.mask := by decide

/-- The row of the first word admits the second, since its mask sees none of the ignored bits. -/
theorem rowClass_eq_of_and_not_ignoredBits_eq {w v : Word}
    (h : w &&& ~~~(decodeWord w).rowClass.ignoredBits = v &&& ~~~(decodeWord w).rowClass.ignoredBits) :
    (decodeWord v).rowClass = (decodeWord w).rowClass := by
  obtain ⟨r, hr, hadm, hcls⟩ := exists_row_admits w
  rw [← hcls] at h
  have hmask : w &&& r.mask = v &&& r.mask := by
    rw [← not_ignoredBits_and_mask r hr, ← BitVec.and_assoc, h, BitVec.and_assoc]
  have hadm' : r.admits v = true := by rwa [TableRow.admits, ← hmask]
  rw [← cls_of_admits hr hadm', hcls]

/-- Settles O9: both words are in one row, so their instructions have the same assembled word. -/
theorem ignoredBitsDoNotMatter : Obligations.IgnoredBitsDoNotMatter := by
  intro w v h
  have hrow := rowClass_eq_of_and_not_ignoredBits_eq h
  calc decodeWord v = decodeWord (encode (decodeWord v)) := (decodeWord_encode_decodeWord v).symm
    _ = decodeWord (encode (decodeWord w)) := by
      rw [encode_decodeWord, encode_decodeWord, hrow, RowClass.assembled, ← h, ← RowClass.assembled]
    _ = decodeWord w := decodeWord_encode_decodeWord w

end Sys2Proof
end

section
/-! The trace. Tracing never changes what the engine computes (R111): a call reads neither the trace log nor `tracing`,
so it takes two states that differ at most there to two such states. The trace and the output only grow. -/

namespace Sys2Proof.Machine

/-! ## States that differ at most in the trace -/

/-- The state with another trace log and another value of `tracing`. -/
def State.retrace (log : List Event) (on : Bool) (s : State) : State := { s with trace := log, tracing := on }

@[simp] theorem State.retrace_input (log : List Event) (on : Bool) (s : State) :
    (s.retrace log on).input = s.input := rfl

@[simp] theorem State.retrace_inputClosed (log : List Event) (on : Bool) (s : State) :
    (s.retrace log on).inputClosed = s.inputClosed := rfl

theorem sameButTrace_retrace (s : State) (log : List Event) (on : Bool) : SameButTrace s (s.retrace log on) := rfl

theorem SameButTrace.exists_retrace {s t : State} (h : SameButTrace s t) : ∃ log on, t = s.retrace log on :=
  ⟨t.trace, t.tracing, h.symm⟩

section SameButTrace
variable {s t : State} (h : SameButTrace s t)
include h

theorem SameButTrace.hold_eq : t.hold = s.hold := by rw [← h]

theorem SameButTrace.isRunning_eq : t.isRunning = s.isRunning := by rw [← h]

theorem SameButTrace.nextWord_eq : t.nextWord = s.nextWord := by rw [← h]; rfl

theorem SameButTrace.withHold (g : Option Hold) : SameButTrace { s with hold := g } { t with hold := g } := by
  obtain ⟨log, on, rfl⟩ := h.exists_retrace
  rfl

end SameButTrace

/-- The operation takes two states that differ at most in the trace to two such states. -/
def TraceBlind (f : State → State) : Prop := ∀ ⦃s t : State⦄, SameButTrace s t → SameButTrace (f s) (f t)

section TraceBlind
variable {f g : State → State}

theorem TraceBlind.of_retrace (h : ∀ s log on, SameButTrace (f s) (f (s.retrace log on))) : TraceBlind f := by
  intro s t hst
  obtain ⟨log, on, rfl⟩ := hst.exists_retrace
  exact h s log on

/-- A choice that does not look at the trace, between two operations that do not. -/
theorem TraceBlind.ite {p : State → Prop} [DecidablePred p] (hp : ∀ s log on, p (s.retrace log on) ↔ p s)
    (hf : TraceBlind f) (hg : TraceBlind g) : TraceBlind fun s => if p s then f s else g s := by
  refine .of_retrace fun s log on => ?_
  by_cases h : p s
  · simpa only [hp, h, if_true] using hf (sameButTrace_retrace s log on)
  · simpa only [hp, h, if_false] using hg (sameButTrace_retrace s log on)

end TraceBlind

/-! ## The services (R150 to R155) -/

section Services
variable {go : State → State} (hgo : TraceBlind go)
include hgo

theorem TraceBlind.outWrite (b : Byte) : TraceBlind fun s => (outWrite b s).andThen go := by
  refine .of_retrace fun s log on => ?_
  rcases outWrite_cases b s with ⟨ha, hw⟩ | ⟨hf, hw⟩
  · rw [hw, outWrite_done (s := s.retrace log on) ha]
    exact hgo rfl
  · rw [hw, outWrite_fails (s := s.retrace log on) hf]
    rfl

theorem TraceBlind.outWriteAll (bs : List Byte) : TraceBlind fun s => (outWriteAll bs s).andThen go := by
  induction bs with
  | nil => exact hgo
  | cons b rest ih =>
    have hcons (s : State) : (Machine.outWriteAll (b :: rest) s).andThen go =
        (Machine.outWrite b s).andThen fun t => (Machine.outWriteAll rest t).andThen go := by
      rw [Machine.outWriteAll]
      cases Machine.outWrite b s <;> rfl
    simpa only [hcons] using TraceBlind.outWrite ih b

end Services

theorem TraceBlind.inRead (h : Held) {go : Byte → State → State} (hgo : ∀ c, TraceBlind (go c)) :
    TraceBlind fun s => (inRead s).andThen h go := by
  refine .of_retrace fun s log on => ?_
  simp only [Machine.inRead, State.retrace_input, State.retrace_inputClosed]
  rcases s.input with - | ⟨c | -, rest⟩
  · by_cases hc : s.inputClosed = true
    · simp only [hc]
      rfl
    · simp only [hc]
      rfl
  · exact hgo c rfl
  · rfl

theorem TraceBlind.writeReg (r : Reg) (v : Word) : TraceBlind (State.writeReg r v) := .of_retrace fun _ _ _ => rfl

theorem TraceBlind.getc : TraceBlind State.getc := .inRead _ fun c => .writeReg 0 (zext c)

theorem TraceBlind.out : TraceBlind State.out :=
  .of_retrace fun s _ _ => TraceBlind.outWrite (go := id) (fun _ _ h => h) (lowByte (s.reg 0)) rfl

theorem TraceBlind.putsLoop (fuel : Nat) (a : Word) : TraceBlind (putsLoop fuel a) := by
  induction fuel generalizing a with
  | zero => exact .of_retrace fun _ _ _ => rfl
  | succ n ih =>
    have hword : TraceBlind fun s =>
        (Machine.outWrite (lowByte (s.mem.read a)) s).andThen (Machine.putsLoop n (a + 1)) :=
      .of_retrace fun s _ _ => TraceBlind.outWrite (ih (a + 1)) (lowByte (s.mem.read a)) rfl
    exact .ite (p := fun s => s.mem.read a = 0) (fun _ _ _ => Iff.rfl) (fun _ _ h => h) hword

theorem TraceBlind.puts : TraceBlind State.puts :=
  .of_retrace fun s _ _ => TraceBlind.putsLoop Config.memWords (s.reg 0) rfl

theorem TraceBlind.inAfterPrompt : TraceBlind State.inAfterPrompt :=
  .inRead _ fun c => .outWrite (.writeReg 0 (zext c)) c

theorem TraceBlind.inWith (prompt : List Byte) : TraceBlind (State.inWith prompt) := .outWriteAll .inAfterPrompt prompt

theorem TraceBlind.halt : TraceBlind State.halt := .of_retrace fun _ _ _ => rfl

theorem TraceBlind.trap (v : BitVec 8) : TraceBlind (State.trap v) := by
  intro s t h
  unfold State.trap
  split_ifs
  · exact TraceBlind.getc h
  · exact TraceBlind.out h
  · exact TraceBlind.puts h
  · exact TraceBlind.inWith _ h
  · exact TraceBlind.halt h
  · obtain ⟨log, on, rfl⟩ := h.exists_retrace
    rfl

theorem TraceBlind.continueService (h : Held) : TraceBlind (State.continueService h) := by
  cases h
  · exact .getc
  · exact .inAfterPrompt
  · exact .puts

/-! ## Every instruction -/

theorem TraceBlind.branch (n z p : Bool) (off : BitVec 9) : TraceBlind (State.branch n z p off) :=
  .ite (p := fun s => branchTaken n z p s = true) (fun _ _ _ => Iff.rfl) (.of_retrace fun _ _ _ => rfl) fun _ _ h => h

/-- All instructions but BR and the services write what they read from registers, PC and memory. -/
theorem exec_sameButTrace {i : Instr} {s s' t t' : State} (h : SameButTrace s s') (ht : exec i s = .next t)
    (ht' : exec i s' = .next t') : SameButTrace t t' := by
  cases i with (cases ht; cases ht')
  | addReg | addImm | andReg | andImm | notReg | ld | ldi | ldr | lea | st | sti | str | jmp | ret | jsr | jsrr
  | reserved1101 | unlisted1000 =>
    obtain ⟨log, on, rfl⟩ := h.exists_retrace
    rfl
  | br n z p off => exact TraceBlind.branch n z p off h
  | nop off => exact TraceBlind.branch _ _ _ off h
  | trap v => exact TraceBlind.trap v h
  | getc => exact TraceBlind.getc h
  | out => exact TraceBlind.out h
  | puts => exact TraceBlind.puts h
  | in_ => exact TraceBlind.inWith _ h
  | halt => exact TraceBlind.halt h

/-! ## The rest of a call -/

theorem TraceBlind.beginCall : TraceBlind State.beginCall := .of_retrace fun _ _ _ => rfl

theorem TraceBlind.raiseClock : TraceBlind State.raiseClock :=
  .ite (p := fun s => s.clk = true) (fun _ _ _ => Iff.rfl) (fun _ _ h => h) (.of_retrace fun _ _ _ => rfl)

theorem TraceBlind.recordFalling : TraceBlind State.recordFalling := .of_retrace fun _ _ _ => rfl

theorem TraceBlind.beforeExecute : TraceBlind State.beforeExecute := .of_retrace fun _ _ _ => rfl

theorem TraceBlind.prepared : TraceBlind State.prepared := fun _ _ h =>
  TraceBlind.beforeExecute (TraceBlind.raiseClock (TraceBlind.beginCall h))

theorem TraceBlind.endStep : TraceBlind State.endStep := by
  intro s t hst
  simp only [State.endStep, hst.hold_eq]
  cases s.hold with
  | none => exact TraceBlind.raiseClock hst
  | some g => exact hst.withHold _

theorem TraceBlind.continueCall (h : Hold) : TraceBlind (State.continueCall h) := by
  intro s t hst
  have hq := TraceBlind.continueService h.service (hst.withHold none)
  simp only [State.continueCall, hq.hold_eq]
  cases (State.continueService h.service { s with hold := none }).hold with
  | none =>
    cases h.byStep
    · exact hq
    · exact TraceBlind.raiseClock hq
  | some g => exact hq.withHold _

/-- Settles O49: the two states agree on which kind of step it is, and each part of that step does not see the trace. -/
theorem tracingDoesNotMatter : Obligations.TracingDoesNotMatter := by
  intro s s' t t' h hstep hstep'
  rcases step_cases s with ⟨hh, hrun, u, hu, e⟩ | ⟨hh, hrun, e⟩ | ⟨g, hh, e⟩ <;> cases e.symm.trans hstep
  · obtain ⟨u', hu', e'⟩ := step_running (h.hold_eq.trans hh) (h.isRunning_eq.trans hrun)
    cases e'.symm.trans hstep'
    rw [h.nextWord_eq] at hu'
    exact TraceBlind.endStep (exec_sameButTrace (TraceBlind.prepared h) hu hu')
  · cases (step_halted (h.hold_eq.trans hh) (h.isRunning_eq.trans hrun)).symm.trans hstep'
    exact TraceBlind.raiseClock (TraceBlind.recordFalling (TraceBlind.raiseClock (TraceBlind.beginCall h)))
  · cases (step_held (h.hold_eq.trans hh)).symm.trans hstep'
    exact TraceBlind.continueCall g h

/-! ## What only grows (R30, R34, R161) -/

/-- `tracing` is as before, and the trace and the output are extended. -/
structure Extends (s t : State) : Prop where
  tracing : t.tracing = s.tracing
  trace : ∃ evs, Traced evs s t
  output : ∃ bs, t.output = s.output ++ bs

theorem Extends.trans {s t u : State} (h : Extends s t) (g : Extends t u) : Extends s u := by
  obtain ⟨htr, ⟨e, he⟩, b, hb⟩ := h
  obtain ⟨gtr, ⟨f, hf⟩, c, hc⟩ := g
  exact ⟨gtr.trans htr, ⟨e ++ f, he.trans htr hf⟩, b ++ c, by rw [hc, hb, List.append_assoc]⟩

theorem ExecFrame.toExtends {s t : State} (h : ExecFrame s t) : Extends s t := ⟨h.clock.2.1, h.trace, h.output⟩

theorem Extends.of_eq {s t : State} (htr : t.tracing = s.tracing) (hlog : t.trace = s.trace)
    (hout : t.output = s.output) : Extends s t := ⟨htr, ⟨[], .nil hlog⟩, [], by simp [hout]⟩

theorem Extends.raiseClock (s : State) : Extends s s.raiseClock := by
  unfold State.raiseClock
  split
  · exact .of_eq rfl rfl rfl
  · exact ⟨rfl, ⟨_, .emit ({ s with clk := true, edgeSeen := true } : State) _⟩, [], by simp⟩

theorem Extends.recordFalling (s : State) : Extends s s.recordFalling :=
  ⟨rfl, ⟨_, .emit ({ s with clk := false, edgeSeen := true } : State) _⟩, [], by simp⟩

theorem Extends.prepared (s : State) : Extends s s.prepared := ⟨by simp, ⟨_, s.prepared_trace⟩, [], by simp⟩

theorem Extends.endStep (s : State) : Extends s s.endStep := by
  rcases s.endStep_eq with ⟨-, e⟩ | ⟨h, -, e⟩ <;> rw [e]
  · exact .raiseClock s
  · exact .of_eq rfl rfl rfl

theorem Extends.continueCall (h : Hold) (s : State) : Extends s (s.continueCall h) := by
  have hq : Extends s (({ s with hold := none } : State).continueService h.service) :=
    .trans (t := { s with hold := none }) (.of_eq rfl rfl rfl) (ServiceFrame.continueService _ _).frame.toExtends
  rcases s.continueCall_cases h with ⟨g, -, e⟩ | ⟨-, e⟩ <;> rw [e]
  · exact hq.trans (.of_eq rfl rfl rfl)
  · split
    · exact hq.trans (.raiseClock _)
    · exact hq

theorem step_extends {s t : State} (hstep : step s = .next t) : Extends s t := by
  rcases step_cases s with ⟨-, -, u, hu, e⟩ | ⟨-, -, e⟩ | ⟨h, -, e⟩ <;> cases e.symm.trans hstep
  · exact ((Extends.prepared s).trans (exec_frame hu).toExtends).trans (.endStep u)
  · have hbegin : Extends s s.beginCall := .of_eq rfl rfl rfl
    exact ((hbegin.trans (.raiseClock _)).trans (.recordFalling _)).trans (.raiseClock _)
  · exact .continueCall h s

/-- Settles O50: each part of a step extends the trace and the output, and with `tracing` false by no event. -/
theorem traceAndOutputOnlyGrow : Obligations.TraceAndOutputOnlyGrow := by
  intro s t hstep
  obtain ⟨htr, ⟨evs, hlog⟩, hout⟩ := step_extends hstep
  exact ⟨htr, ⟨_, hlog⟩, fun hoff => by simpa [Traced, hoff] using hlog, hout⟩

end Sys2Proof.Machine
end

section
/-! The clock and the cascade (R100 to R109): what each edge does, that `step()` is three `set_clock` calls, and what a
step runs. -/

namespace Sys2Proof.Machine

/-! ## One edge -/

theorem State.raiseClock_of_high {s : State} (hc : s.clk = true) : s.raiseClock = s := if_pos hc

theorem State.raiseClock_of_low {s : State} (hc : s.clk = false) :
    s.raiseClock = ({ s with clk := true, edgeSeen := true } : State).emit .edgeRising := by
  simp [State.raiseClock, hc]

/-- An edge neither looks at `report` nor sets it. -/
theorem State.beginCall_raiseClock (s : State) : s.raiseClock.beginCall = s.beginCall.raiseClock := by
  cases hc : s.clk
  · rw [s.raiseClock_of_low hc, s.beginCall.raiseClock_of_low hc]
    rfl
  · rw [s.raiseClock_of_high hc, s.beginCall.raiseClock_of_high hc]

section SetClock
variable {s : State} (hh : s.hold = none)
include hh

theorem setClock_true : setClock true s = .next s.beginCall.raiseClock := by simp [setClock, hh]

theorem setClock_false : setClock false s = fallingEdge s.beginCall := by simp [setClock, hh]

/-- A level delivered again is no edge (R108). -/
theorem setClock_same : setClock s.clk s = .next s.beginCall := by
  cases hc : s.clk
  · simp [setClock_false hh, fallingEdge, hc]
  · rw [setClock_true hh, s.beginCall.raiseClock_of_high hc]

/-- A falling edge of an engine that does not run is recorded only (R107). -/
theorem setClock_false_halted (hrun : s.isRunning = false) (hc : s.clk = true) :
    setClock false s = .next s.beginCall.recordFalling := by
  simp [setClock_false hh, fallingEdge, hrun, hc]

/-- A falling edge of a running engine is the cascade (R102). -/
theorem setClock_false_running (hrun : s.isRunning = true) (hc : s.clk = true) :
    setClock false s = exec (decodeWord s.nextWord) s.beginCall.beforeExecute := by
  simp [setClock_false hh, fallingEdge, hrun, hc]

end SetClock

/-- Settles O12: a rising edge raises `clk` and notes itself. -/
theorem risingEdgeOnlyMarks : Obligations.RisingEdgeOnlyMarks := by
  intro s hh hc
  refine ⟨_, setClock_true hh, ?_⟩
  rw [s.beginCall.raiseClock_of_low hc]
  exact ⟨.emit ({ s.beginCall with clk := true, edgeSeen := true } : State) _, rfl⟩

/-! ## An engine that does not run -/

theorem run_of_step {s t : State} (h : step s = .next t) (n : Nat) :
    Sys2Proof.core.run (n + 1) s = Sys2Proof.core.run n t := by
  have hcore : Sys2Proof.core.step s = .next t := h
  simp only [Host.Core.run, hcore]

/-- A step while `is_running` is false touches the marks of the clock, `report` and the trace only. -/
theorem step_halted_marks {s : State} (hh : s.hold = none) (hrun : s.isRunning = false) :
    ∃ clk seen rep log, step s = .next { s with clk := clk, edgeSeen := seen, report := rep, trace := log } := by
  rw [step_halted hh hrun, State.raiseClock_of_low (State.recordFalling_clk _)]
  cases hc : s.clk
  · rw [s.beginCall.raiseClock_of_low hc]
    exact ⟨_, _, _, _, rfl⟩
  · rw [s.beginCall.raiseClock_of_high hc]
    exact ⟨_, _, _, _, rfl⟩

/-- Any number of such steps touches no more. -/
theorem run_halted_marks (n : Nat) {s : State} (hh : s.hold = none) (hrun : s.isRunning = false) :
    ∃ clk seen rep log,
      Sys2Proof.core.run n s = .next { s with clk := clk, edgeSeen := seen, report := rep, trace := log } := by
  induction n generalizing s with
  | zero => exact ⟨s.clk, s.edgeSeen, s.report, s.trace, rfl⟩
  | succ n ih =>
    obtain ⟨clk, seen, rep, log, hstep⟩ := step_halted_marks hh hrun
    obtain ⟨clk', seen', rep', log', hrest⟩ :=
      ih (s := { s with clk := clk, edgeSeen := seen, report := rep, trace := log }) hh hrun
    exact ⟨clk', seen', rep', log', (run_of_step hstep n).trans hrest⟩

/-- Settles O13: the two edges by themselves, and any number of steps by induction. -/
theorem haltedEdgesOnlyRecord : Obligations.HaltedEdgesOnlyRecord := by
  refine ⟨fun s hh hrun hc => ?_, fun s hh _ hc => risingEdgeOnlyMarks s hh hc, fun n s hh hrun => ?_⟩
  · exact ⟨_, setClock_false_halted hh hrun hc,
      .emit ({ s.beginCall with clk := false, edgeSeen := true } : State) _, rfl⟩
  · obtain ⟨clk, seen, rep, log, h⟩ := run_halted_marks n hh hrun
    exact ⟨_, h, rfl, rfl, rfl, rfl, rfl, hrun, hh, ⟨rfl, rfl⟩, rfl, rfl, rfl⟩

/-! ## `step()` (R109) -/

theorem fallingEdge_next (s : State) : ∃ t, fallingEdge s = .next t := by
  unfold fallingEdge
  split_ifs
  · exact ⟨_, rfl⟩
  · obtain ⟨t, ht, -⟩ := exec_next (decodeWord s.nextWord) s.beforeExecute
    exact ⟨t, ht⟩
  · exact ⟨_, rfl⟩

theorem step_of_fallingEdge {s v : State} (hh : s.hold = none) (h : fallingEdge s.beginCall.raiseClock = .next v) :
    step s = .next v.endStep := by
  simp [step, stepOrContinue, hh, stepCall, h]

/-- Settles O14: the first and the last call are rising edges, and the last one would clear what the falling edge
reported. -/
theorem stepIsThreeSetClocks : Obligations.StepIsThreeSetClocks := by
  refine ⟨fun s b hh hb => hb ▸ setClock_same hh, fun s hh => ?_⟩
  obtain ⟨v, hv⟩ := fallingEdge_next s.beginCall.raiseClock
  have hstep := step_of_fallingEdge hh hv
  have hbegin : s.beginCall.raiseClock.beginCall = s.beginCall.raiseClock := s.beginCall.beginCall_raiseClock
  refine ⟨_, v, setClock_true hh, ?_, fun hvh => ⟨_, setClock_true hvh, ?_⟩, fun h hvh => ?_⟩
  · rw [setClock_false (by simpa using hh), hbegin, hv]
  · rw [hstep, v.endStep_hold_none hvh, ← v.beginCall_raiseClock, ← v.raiseClock_report]
    rfl
  · rw [hstep, State.endStep, hvh]

/-! ## What a step runs -/

/-- Settles O15: the three kinds of step, and every instruction, answer a next state. -/
theorem everyStepHasNextState : Obligations.EveryStepHasNextState := by
  refine ⟨fun s => ?_, fun i s => ?_⟩
  · rcases step_cases s with ⟨-, -, t, -, e⟩ | ⟨-, -, e⟩ | ⟨h, -, e⟩
    · exact ⟨_, e⟩
    · exact ⟨_, e⟩
    · exact ⟨_, e⟩
  · obtain ⟨t, ht, -⟩ := exec_next i s
    exact ⟨t, ht⟩

theorem State.prepared_streams (s : State) : KeepsStreams s s.prepared :=
  ⟨⟨by simp, by simp⟩, by simp, by simp, by simp⟩

/-- Settles O11: the execute step begins in the state after the fetch, the increment and the note of the decode. -/
theorem stepRunsDecodedInstruction : Obligations.StepRunsDecodedInstruction := by
  intro s hh hrun
  obtain ⟨t, ht, hstep⟩ := step_running hh hrun
  exact ⟨s.prepared, t, ht, hstep, s.prepared_pc, s.prepared_instr, s.prepared_clk, s.prepared_edgeSeen,
    s.prepared_isRunning.trans hrun, s.prepared_tracing, s.prepared_hold.trans hh, s.prepared_report, s.prepared_regs,
    s.prepared_flags, s.prepared_mem, s.prepared_streams, s.prepared_trace⟩

theorem nextWord_withFetchWord (s : State) (w : Word) : (s.withFetchWord 16 w.toNat).nextWord = w := by
  rw [State.nextWord, State.withFetchWord, Memory.read_write_same, tableWord_16]

/-- Settles O18: the placed word is the next word. -/
theorem placedWordRuns : Obligations.PlacedWordRuns := by
  intro s w
  obtain ⟨t, ht, hstep⟩ := step_running (s := s.withFetchWord 16 w.toNat) rfl rfl
  rw [nextWord_withFetchWord] at ht
  refine ⟨by rw [decodeTableWord, tableWord_16], (s.withFetchWord 16 w.toNat).prepared, t, ht, hstep, ?_⟩
  have hlatch := State.prepared_instr (s.withFetchWord 16 w.toNat)
  rw [nextWord_withFetchWord] at hlatch
  exact ⟨hlatch, State.prepared_pc _, State.prepared_regs _, State.prepared_flags _⟩

end Sys2Proof.Machine
end

section
/-! How a run ends (R116): the calls that clear `is_running`, with what they leave, and the last call of a run. -/

namespace Sys2Proof.Machine

/-! ## The words a run stops at -/

/-- What the fetch and the increment leave, and neither HALT nor a faulting opcode changes, seen from the state before
the call: the PC is past the word, which is latched, and all else that a program can see is as before. -/
structure PastWord (s t : State) : Prop where
  noHold : t.hold = none
  regs : t.regs = s.regs
  flags : t.flags = s.flags
  mem : t.mem = s.mem
  streams : KeepsStreams s t
  pc : t.pc = s.pc + 1
  latch : t.instr = some s.nextWord

section PastWord
variable {s p t : State}

theorem PastWord.prepared (hh : s.hold = none) : PastWord s s.prepared :=
  ⟨s.prepared_hold.trans hh, s.prepared_regs, s.prepared_flags, s.prepared_mem, s.prepared_streams, s.prepared_pc,
    s.prepared_instr⟩

theorem PastWord.beforeExecute (hh : s.hold = none) : PastWord s s.beginCall.beforeExecute :=
  ⟨hh, rfl, rfl, rfl, ⟨⟨rfl, rfl⟩, rfl, rfl, rfl⟩, rfl, rfl⟩

theorem PastWord.halt (h : PastWord s p) : PastWord s p.halt := { h with }

theorem PastWord.illegalOpcode (h : PastWord s p) : PastWord s p.illegalOpcode := { h with }

theorem PastWord.endStep (h : PastWord s t) : PastWord s t.endStep := by
  obtain ⟨hh, hregs, hflags, hmem, hstreams, hpc, hlatch⟩ := h
  rw [t.endStep_hold_none hh]
  exact ⟨by simpa using hh, by simpa using hregs, by simpa using hflags, by simpa using hmem,
    by simpa [KeepsStreams, KeepsInput, KeepsOutput] using hstreams, by simpa using hpc, by simpa using hlatch⟩

/-- How a cascade that clears `is_running` ends, by the word it has fetched. -/
inductive StopsAt (s t : State) : Prop
  | halt (hword : decodeWord s.nextWord = .halt) (hrep : t.report = none)
  | fault (hword : decodeWord s.nextWord = .reserved1101 ∨ decodeWord s.nextWord = .unlisted1000)
      (hrep : t.report = some .illegalOpcode)

theorem StopsAt.endStep (h : StopsAt s t) : StopsAt s t.endStep := by
  cases h with
  | halt hword hrep => exact .halt hword (by simpa using hrep)
  | fault hword hrep => exact .fault hword (by simpa using hrep)

/-- An execute step that clears `is_running` is HALT's or a faulting opcode's. -/
theorem PastWord.stops (h : PastWord s p) (hrun : p.isRunning = true) (hrep : p.report = none)
    (he : exec (decodeWord s.nextWord) p = .next t) (hstop : t.isRunning = false) : PastWord s t ∧ StopsAt s t := by
  rcases (exec_stops_iff (decodeWord_wf s.nextWord) he hrun).1 hstop with hw | hw | hw <;> cases (hw ▸ he)
  · exact ⟨h.halt, .halt hw hrep⟩
  · exact ⟨h.illegalOpcode, .fault (.inl hw) rfl⟩
  · exact ⟨h.illegalOpcode, .fault (.inr hw) rfl⟩

end PastWord

/-! ## The calls that end a run -/

section Ends
variable {s t : State}

theorem step_ends (hstep : step s = .next t) (hrun : s.isRunning = true) (hstop : t.isRunning = false) :
    s.hold = none ∧ PastWord s t ∧ StopsAt s t := by
  rcases step_cases s with ⟨hh, -, u, hu, e⟩ | ⟨-, hidle, -⟩ | ⟨h, hh, -⟩
  · cases e.symm.trans hstep
    obtain ⟨hpast, hat⟩ := (PastWord.prepared hh).stops (by simpa using hrun) (by simp) hu (by simpa using hstop)
    exact ⟨hh, hpast.endStep, hat.endStep⟩
  · simp [hrun] at hidle
  · have := step_held_isRunning (by simp [hh]) hstep
    simp [hrun, hstop] at this

theorem setClock_ends {b : Bool} (hclk : setClock b s = .next t) (hrun : s.isRunning = true)
    (hstop : t.isRunning = false) : s.hold = none ∧ PastWord s t ∧ StopsAt s t := by
  obtain ⟨hh, ⟨-, rfl⟩ | ⟨-, -, rfl⟩ | ⟨-, -, hidle, -⟩ | ⟨-, -, -, he⟩⟩ := setClock_cases hclk
  · simp [hrun] at hstop
  · simp [hrun] at hstop
  · simp [hrun] at hidle
  · exact ⟨hh, (PastWord.beforeExecute hh).stops hrun rfl he hstop⟩

/-- The one inversion lemma of the end of a run. -/
theorem EndsRun.stops (h : EndsRun s t) : s.hold = none ∧ PastWord s t ∧ StopsAt s t := by
  obtain ⟨hstep | ⟨b, hclk⟩, hrun, hstop⟩ := h
  · exact step_ends hstep hrun hstop
  · exact setClock_ends hclk hrun hstop

theorem EndsRun.normal_or_fault (h : EndsRun s t) : NormalEnd s t ∨ FaultEnd s t := by
  obtain ⟨-, -, hat⟩ := h.stops
  cases hat with
  | halt _ hrep => exact .inl ⟨h, hrep⟩
  | fault _ hrep => exact .inr ⟨h, hrep⟩

theorem NormalEnd.not_fault (h : NormalEnd s t) : ¬ FaultEnd s t := by
  rintro ⟨-, hrep⟩
  cases h.2.symm.trans hrep

theorem FaultEnd.not_normal (h : FaultEnd s t) : ¬ NormalEnd s t := fun hn => hn.not_fault h

/-- A call that reports an error other than `IllegalOpcode` leaves a running engine running. -/
theorem Call.keeps_running (h : Call s t) (hrun : s.isRunning = true)
    (hrep : t.report = some .unknownTrap ∨ t.report = some .ioError) : t.isRunning = true := by
  by_contra hstop
  obtain ⟨-, -, hat⟩ := EndsRun.stops ⟨h, hrun, Bool.eq_false_iff.2 hstop⟩
  cases hat with
  | halt _ hnone => simp [hnone] at hrep
  | fault _ hill => simp [hill] at hrep

theorem RunEndsAfter.running {n : Nat} (h : RunEndsAfter n s t) : s.isRunning = true := by
  cases n with
  | zero => exact h.2.1
  | succ n =>
    obtain ⟨u, hgo, -⟩ := h
    exact hgo.1

/-- The last move of a run is the call that ends it. -/
theorem RunEndsAfter.last {n : Nat} (h : RunEndsAfter n s t) : ∃ u, EndsRun u t := by
  induction n generalizing s with
  | zero => exact ⟨s, h⟩
  | succ n ih =>
    obtain ⟨u, -, hrest⟩ := h
    exact ih hrest

end Ends

/-- Settles O56: a call that clears `is_running` is at one of three words, and a run's last call is such a call. -/
theorem runEndsByHaltOrIllegalOpcode : Obligations.RunEndsByHaltOrIllegalOpcode := by
  refine ⟨fun s t h => ?_, fun s hh hrun hc => ⟨fun hw => ?_, fun hw => ?_⟩, fun s t => Call.keeps_running,
    fun n s f h => ?_⟩
  · obtain ⟨hh, ⟨hth, hregs, hflags, hmem, hstreams, hpc, hlatch⟩, hat⟩ := h.stops
    refine ⟨hh, hth, State.reg_congr hregs, hflags, fun a => by rw [hmem], hstreams, hpc, hlatch, ?_⟩
    cases hat with
    | halt hw hrep =>
      have hend : NormalEnd s t := ⟨h, hrep⟩
      exact .inl ⟨hw, hend, hend.not_fault⟩
    | fault hw hrep =>
      have hend : FaultEnd s t := ⟨h, hrep⟩
      exact .inr ⟨hw, hend, hend.not_normal⟩
  · have hclk : setClock false s = .next s.beginCall.beforeExecute.halt := by
      rw [setClock_false_running hh hrun hc, State.nextWord, hw]
      rfl
    exact ⟨_, hclk, ⟨.inr ⟨false, hclk⟩, hrun, rfl⟩, rfl⟩
  · have hclk : setClock false s = .next s.beginCall.beforeExecute.illegalOpcode := by
      rw [setClock_false_running hh hrun hc, State.nextWord]
      rcases hw with hw | hw <;> rw [hw] <;> rfl
    exact ⟨_, hclk, ⟨.inr ⟨false, hclk⟩, hrun, rfl⟩, rfl⟩
  · obtain ⟨u, hu⟩ := h.last
    exact ⟨h.running, hu.2.2, u, hu, hu.normal_or_fault⟩

end Sys2Proof.Machine
end

section
/-! The operate instructions ADD, AND and NOT (R120 to R125): each one is `writeResult` of the spec's value, computed from
the sources as they were before the write. -/

namespace Sys2Proof.Machine

section Operate

variable (dr sr1 sr2 : Reg) (imm5 : BitVec 5) (s : State)

/-- R120. -/
theorem exec_addReg : exec (.addReg dr sr1 sr2) s = .next (s.writeResult dr (s.reg sr1 + s.reg sr2)) := rfl

/-- R121. -/
theorem exec_addImm : exec (.addImm dr sr1 imm5) s = .next (s.writeResult dr (s.reg sr1 + imm5.signExtend 16)) := by
  rw [← sext_5]
  rfl

/-- R122. -/
theorem exec_andReg : exec (.andReg dr sr1 sr2) s = .next (s.writeResult dr (s.reg sr1 &&& s.reg sr2)) := rfl

/-- R123. -/
theorem exec_andImm : exec (.andImm dr sr1 imm5) s = .next (s.writeResult dr (s.reg sr1 &&& imm5.signExtend 16)) := by
  rw [← sext_5]
  rfl

/-- R124: "bitwise complement of all 16 bits, = 0xFFFF - x[SR]". -/
theorem exec_notReg : exec (.notReg dr sr1) s = .next (s.writeResult dr (0xFFFF - s.reg sr1)) := by
  have hnot : 0xFFFF - s.reg sr1 = ~~~(s.reg sr1) := BitVec.allOnes_sub_eq_not _
  rw [hnot]
  rfl

end Operate

/-- Settles O21: all five forms are `writeResult`, whose effect and frame `writeResult_spec` states. -/
theorem operateInstructionsWriteResult : Obligations.OperateInstructionsWriteResult :=
  fun dr sr1 sr2 imm5 s =>
    ⟨⟨_, exec_addReg dr sr1 sr2 s, writeResult_spec s dr _⟩,
     ⟨_, exec_addImm dr sr1 imm5 s, writeResult_spec s dr _⟩,
     ⟨_, exec_andReg dr sr1 sr2 s, writeResult_spec s dr _⟩,
     ⟨_, exec_andImm dr sr1 imm5 s, writeResult_spec s dr _⟩,
     ⟨_, exec_notReg dr sr1 s, writeResult_spec s dr _⟩⟩

end Sys2Proof.Machine
end

section
/-! Data movement (R130 to R137): the three addressing modes are the spec's sums; each load and LEA is `writeResult` of
the word it moves, each store is `memWrite` at the address it computes. -/

namespace Sys2Proof.Machine

section DataMovement

variable (r baseR : Reg) (off9 : BitVec 9) (off6 : BitVec 6) (s : State)

/-! ## The addressing modes (R137) -/

theorem eaPc9_eq : eaPc9 off9 s = s.pc + off9.signExtend 16 := by rw [eaPc9, sext_9]

theorem eaIndirect_eq : eaIndirect off9 s = s.mem.read (s.pc + off9.signExtend 16) := by rw [eaIndirect, eaPc9_eq]

theorem eaBase6_eq : eaBase6 baseR off6 s = s.reg baseR + off6.signExtend 16 := by rw [eaBase6, sext_6]

/-! ## The loads and LEA -/

/-- R130. -/
theorem exec_ld : exec (.ld r off9) s = .next (s.writeResult r (s.mem.read (s.pc + off9.signExtend 16))) := by
  rw [← eaPc9_eq]
  rfl

/-- R131. -/
theorem exec_ldi :
    exec (.ldi r off9) s = .next (s.writeResult r (s.mem.read (s.mem.read (s.pc + off9.signExtend 16)))) := by
  rw [← eaIndirect_eq]
  rfl

/-- R132. -/
theorem exec_ldr :
    exec (.ldr r baseR off6) s = .next (s.writeResult r (s.mem.read (s.reg baseR + off6.signExtend 16))) := by
  rw [← eaBase6_eq]
  rfl

/-- R133. -/
theorem exec_lea : exec (.lea r off9) s = .next (s.writeResult r (s.pc + off9.signExtend 16)) := by
  rw [← eaPc9_eq]
  rfl

/-! ## The stores -/

/-- R134. -/
theorem exec_st : exec (.st r off9) s = .next (s.memWrite (eaPc9 off9 s) (s.reg r)) := rfl

/-- R135. -/
theorem exec_sti : exec (.sti r off9) s = .next (s.memWrite (eaIndirect off9 s) (s.reg r)) := rfl

/-- R136. -/
theorem exec_str : exec (.str r baseR off6) s = .next (s.memWrite (eaBase6 baseR off6 s) (s.reg r)) := rfl

end DataMovement

/-- Settles O22: the three loads and LEA are `writeResult`, whose effect and frame `writeResult_spec` states. -/
theorem loadsWriteResult : Obligations.LoadsWriteResult :=
  fun dr baseR off9 off6 s =>
    ⟨⟨_, exec_ld dr off9 s, writeResult_spec s dr _⟩,
     ⟨_, exec_ldi dr off9 s, writeResult_spec s dr _⟩,
     ⟨_, exec_ldr dr baseR off6 s, writeResult_spec s dr _⟩,
     ⟨_, exec_lea dr off9 s, writeResult_spec s dr _⟩⟩

/-- Settles O23: the three stores are `memWrite`, whose effect and frame `memWrite_spec` states, and the address of each
is the sum of R137. -/
theorem storesWriteOneWord : Obligations.StoresWriteOneWord :=
  fun sr baseR off9 off6 s =>
    ⟨⟨_, exec_st sr off9 s, memWrite_spec s _ _⟩,
     ⟨_, exec_sti sr off9 s, memWrite_spec s _ _⟩,
     ⟨_, exec_str sr baseR off6 s, memWrite_spec s _ _⟩,
     eaPc9_eq off9 s, eaIndirect_eq off9 s, eaBase6_eq baseR off6 s⟩

end Sys2Proof.Machine
end

section
/-! Control (R140 to R144): BR is `writePc` of the spec's target where its test holds and nothing otherwise, JMP and RET
are `writePc` of a register, JSR and JSRR are the link and then `writePc`. -/

namespace Sys2Proof.Machine

section Control

variable (n z p : Bool) (off9 : BitVec 9) (off11 : BitVec 11) (baseR : Reg) (s : State)

/-! ## The branch and the jumps -/

/-- R140, taken. -/
theorem exec_br_taken (h : branchTaken n z p s = true) :
    exec (.br n z p off9) s = .next (s.writePc (s.pc + off9.signExtend 16)) := by
  rw [← eaPc9_eq]
  exact congrArg _ (if_pos h)

/-- R140, not taken. -/
theorem exec_br_untaken (h : ¬ branchTaken n z p s = true) : exec (.br n z p off9) s = .next s :=
  congrArg _ (if_neg h)

/-- R141. -/
theorem exec_jmp : exec (.jmp baseR) s = .next (s.writePc (s.reg baseR)) := rfl

/-- R142. -/
theorem exec_ret : exec .ret s = .next (s.writePc (s.reg 7)) := rfl

/-! ## The link (R143, R144) -/

theorem State.reg_link_same : s.link.reg 7 = s.pc := s.reg_writeReg_same 7 s.pc

theorem State.reg_link_other : KeepsRegsBut 7 s s.link := fun r hr => s.reg_writeReg_other r 7 s.pc hr

/-- What JSRR finds in its base register: the link is written before the base is read (D18, log 11). -/
theorem State.reg_link : s.link.reg baseR = if baseR = 7 then s.pc else s.reg baseR := by
  split
  next h => rw [h, s.reg_link_same]
  next h => exact s.reg_link_other baseR h

/-- R143. -/
theorem exec_jsr : exec (.jsr off11) s = .next (s.link.writePc (s.pc + off11.signExtend 16)) := by
  rw [← sext_11]
  rfl

/-- R144. -/
theorem exec_jsrr : exec (.jsrr baseR) s = .next (s.link.writePc (if baseR = 7 then s.pc else s.reg baseR)) := by
  rw [← s.reg_link baseR]
  rfl

end Control

/-- Settles O28: `branchTaken_iff` reads the spec's condition as BR's test, and a taken branch is `writePc`. -/
theorem branchTakenOnMatchingFlag : Obligations.BranchTakenOnMatchingFlag := by
  intro n z p off9 s
  rw [← branchTaken_iff]
  exact ⟨fun h => ⟨_, exec_br_taken n z p off9 s h, s.reg_writePc _, writePc_spec s _⟩,
    exec_br_untaken n z p off9 s, exec_nop off9 s⟩

/-- Settles O30: both jumps are `writePc`, whose effect and frame `writePc_spec` states. -/
theorem jumpGoesToRegister : Obligations.JumpGoesToRegister :=
  fun baseR s =>
    ⟨⟨_, exec_jmp baseR s, s.reg_writePc _, writePc_spec s _⟩,
     ⟨_, exec_ret s, s.reg_writePc _, writePc_spec s _⟩,
     (exec_jmp 7 s).trans (exec_ret s).symm⟩

/-- Settles O31: both calls are the link and then `writePc`, whose effect and frame `linkPc_spec` states. -/
theorem callsLinkThenJump : Obligations.CallsLinkThenJump :=
  fun baseR off11 s =>
    ⟨⟨_, exec_jsr off11 s, s.reg_link_same, s.reg_link_other, linkPc_spec s _⟩,
     ⟨_, exec_jsrr baseR s, s.reg_link_same, s.reg_link_other, linkPc_spec s _⟩⟩

end Sys2Proof.Machine
end

section
/-! The services of TRAP (R150 to R156): the dispatch on the vector, and what GETC, OUT, PUTS and IN come to for each
state of the streams, as one equation of states per case (R160 to R162). -/

namespace Sys2Proof.Machine

/-! ## The words of TRAP and the dispatch (R97, R150) -/

/-- A word of opcode 1111 is told by its low byte alone; bits 11 to 8 do not matter (D4, D29). -/
theorem decodeWord_trap {w : Word} (hop : bits w 12 4 = 0b1111) : decodeWord w = trapInstr (bits w 0 8) := by
  have htrap : Opcode.ofBits (bits w 12 4) = .trap := by rw [hop]; rfl
  rw [decodeWord, htrap]

theorem decodeWord_service {w : Word} {v : BitVec 8} (hop : bits w 12 4 = 0b1111) (hv : bits w 0 8 = v) :
    decodeWord w = trapInstr v := by
  rw [decodeWord_trap hop, hv]

/-- Settles O34: the decoder and TRAP choose the service by the same comparisons. -/
theorem trapDispatchesOnVector : Obligations.TrapDispatchesOnVector :=
  ⟨fun _ hop => ⟨decodeWord_service hop, decodeWord_service hop, decodeWord_service hop, decodeWord_service hop,
      decodeWord_service hop⟩,
    fun _ => ⟨rfl, rfl, rfl, rfl, rfl⟩⟩

/-- An instruction whose execute step is a service (`p`), once it is known what the service comes to (`q`). -/
theorem exec_service (i : Instr) {s p q : State} (hexec : exec i s = .next p) (hframe : ServiceFrame s p) (h : p = q) :
    exec i s = .next q ∧ KeepsMachine s q := by
  subst h
  exact ⟨hexec, hframe.keepsMachine⟩

/-- The event of a register write that follows updates which trace nothing. -/
theorem Traced.writeReg {s t : State} (hlog : t.trace = s.trace) (hon : t.tracing = s.tracing) (r : Reg) (v : Word) :
    Traced [.registerWrite (.gpr r) v] s (t.writeReg r v) := by
  rw [Traced, State.writeReg_trace, hlog, hon]
  split <;> simp

/-! ## afterOutput: only the output stream has changed -/

section AfterOutput
variable (s : State) (bs : List Byte)

@[simp] theorem State.afterOutput_regs : (s.afterOutput bs).regs = s.regs := rfl
@[simp] theorem State.afterOutput_pc : (s.afterOutput bs).pc = s.pc := rfl
@[simp] theorem State.afterOutput_flags : (s.afterOutput bs).flags = s.flags := rfl
@[simp] theorem State.afterOutput_clk : (s.afterOutput bs).clk = s.clk := rfl
@[simp] theorem State.afterOutput_isRunning : (s.afterOutput bs).isRunning = s.isRunning := rfl
@[simp] theorem State.afterOutput_tracing : (s.afterOutput bs).tracing = s.tracing := rfl
@[simp] theorem State.afterOutput_instr : (s.afterOutput bs).instr = s.instr := rfl
@[simp] theorem State.afterOutput_edgeSeen : (s.afterOutput bs).edgeSeen = s.edgeSeen := rfl
@[simp] theorem State.afterOutput_mem : (s.afterOutput bs).mem = s.mem := rfl
@[simp] theorem State.afterOutput_trace : (s.afterOutput bs).trace = s.trace := rfl
@[simp] theorem State.afterOutput_input : (s.afterOutput bs).input = s.input := rfl
@[simp] theorem State.afterOutput_inputClosed : (s.afterOutput bs).inputClosed = s.inputClosed := rfl
@[simp] theorem State.afterOutput_outputClosed : (s.afterOutput bs).outputClosed = s.outputClosed := rfl
@[simp] theorem State.afterOutput_hold : (s.afterOutput bs).hold = s.hold := rfl
@[simp] theorem State.afterOutput_report : (s.afterOutput bs).report = s.report := rfl
@[simp] theorem State.afterOutput_output : (s.afterOutput bs).output = s.output ++ bs := rfl
@[simp] theorem State.afterOutput_outFails : (s.afterOutput bs).outFails = s.outFails.drop bs.length := rfl
@[simp] theorem State.reg_afterOutput (r : Reg) : (s.afterOutput bs).reg r = s.reg r := rfl

end AfterOutput

/-! ## The input port (R160) -/

section Input
variable {s : State}

theorem inRead_char {c : Byte} {rest : List InItem} (h : s.input = .char c :: rest) :
    inRead s = .char c s.takeInput := by
  simp [inRead, h]

theorem State.takeInput_of_nil (h : s.input = []) : s.takeInput = s := by
  cases s
  simp_all [State.takeInput]

/-- A failing call uses up its item, where there is one (log 3). -/
theorem inRead_fails (h : s.inputFailing) : inRead s = .fails s.takeInput := by
  rcases inRead_cases s with ⟨c, rest, hin, -⟩ | ⟨-, -, hr⟩ | ⟨hin, -, hr⟩ | ⟨hin, hopen, -⟩
  · simp [State.inputFailing, hin] at h
  · exact hr
  · rw [hr, State.takeInput_of_nil hin]
  · simp [State.inputFailing, hin, hopen] at h

theorem inRead_waits (hin : s.input = []) (hopen : s.inputClosed = false) : inRead s = .waits s := by
  simp [inRead, hin, hopen]

/-! ## GETC (R151) and IN after its prompt (R154) -/

theorem getc_char {c : Byte} {rest : List InItem} (h : s.input = .char c :: rest) :
    s.getc = s.takeInput.writeReg 0 (zext c) := by
  rw [State.getc, inRead_char h]
  rfl

theorem inAfterPrompt_char {c : Byte} {rest : List InItem} (h : s.input = .char c :: rest) (hacc : s.outputAccepts 1) :
    s.inAfterPrompt = (s.takeInput.takeVerdict.appendOutput c).writeReg 0 (zext c) := by
  have hecho := outWrite_done (s := s.takeInput) hacc c
  rw [State.inAfterPrompt, inRead_char h, InResult.andThen, hecho]
  rfl

/-- A failing echo: the character is consumed and R0 is not written (R162). -/
theorem inAfterPrompt_echo_fails {c : Byte} {rest : List InItem} (h : s.input = .char c :: rest)
    (hfail : s.outputFailing) : s.inAfterPrompt = s.takeInput.takeVerdict.raise .ioError := by
  have hecho := outWrite_fails (s := s.takeInput) hfail c
  rw [State.inAfterPrompt, inRead_char h, InResult.andThen, hecho]
  rfl

/-- GETC and IN after its prompt both begin with the read, and go no further where it fails. -/
theorem continueService_read_fails {v : Held} (hv : v ≠ .puts) (h : s.inputFailing) :
    s.continueService v = s.takeInput.raise .ioError := by
  cases v with
  | getc => rw [State.continueService, State.getc, inRead_fails h]; rfl
  | in_ => rw [State.continueService, State.inAfterPrompt, inRead_fails h]; rfl
  | puts => exact absurd rfl hv

/-- They hold where there is no character yet (D17). -/
theorem continueService_waits {v : Held} (hv : v ≠ .puts) (hin : s.input = []) (hopen : s.inputClosed = false) :
    s.continueService v = s.holdIn v := by
  cases v with
  | getc => rw [State.continueService, State.getc, inRead_waits hin hopen]; rfl
  | in_ => rw [State.continueService, State.inAfterPrompt, inRead_waits hin hopen]; rfl
  | puts => exact absurd rfl hv

end Input

/-! ## OUT (R152) -/

section Out
variable {s : State}

theorem out_accepts (h : s.outputAccepts 1) : s.out = s.takeVerdict.appendOutput (lowByte (s.reg 0)) := by
  rw [State.out, outWrite_done h]
  rfl

theorem out_fails (h : s.outputFailing) : s.out = s.takeVerdict.raise .ioError := by
  rw [State.out, outWrite_fails h]
  rfl

end Out

/-! ## The prompt of IN -/

section Prompt
variable {s : State} {prompt : List Byte}

/-- The next `bs.length + n` calls succeed: those for `bs` do, and the `n` after them do. -/
theorem State.outputAccepts_add (s : State) (bs : List Byte) (n : Nat) :
    s.outputAccepts (bs.length + n) ↔ s.outputAccepts bs.length ∧ (s.afterOutput bs).outputAccepts n := by
  induction bs generalizing s with
  | nil => simp [s.outputAccepts_zero]
  | cons b rest ih =>
    rw [List.length_cons, Nat.add_right_comm, s.outputAccepts_succ b (rest.length + n),
      s.outputAccepts_succ b rest.length, ih, State.afterOutput_cons, and_assoc]

/-- The call after those for `bs` is the one that fails. -/
theorem State.outputFailing_afterOutput {bs : List Byte} (h : s.outputFailsAfter bs.length) :
    (s.afterOutput bs).outputFailing := by
  induction bs generalizing s with
  | nil => rwa [State.afterOutput_nil]
  | cons b rest ih =>
    obtain ⟨-, hrest⟩ := (s.outputFailsAfter_succ b rest.length).1 h
    rw [State.afterOutput_cons]
    exact ih hrest

theorem inWith_prompt (h : s.outputAccepts prompt.length) : s.inWith prompt = (s.afterOutput prompt).inAfterPrompt := by
  rw [State.inWith, outWriteAll_done prompt s h]
  rfl

theorem inWith_prompt_fails {k : Nat} (hk : k < prompt.length) (h : s.outputFailsAfter k) :
    s.inWith prompt = (s.afterOutput (prompt.take k)).takeVerdict.raise .ioError := by
  rw [State.inWith, outWriteAll_fails prompt k s hk h]
  rfl

end Prompt

/-! ## PUTS (R153) -/

section Puts
variable {s : State}

theorem puts_string {n : Nat} (hn : n < 65536) (hs : stringAt s.mem (s.reg 0) n) (h : s.outputAccepts n) :
    s.puts = s.afterOutput (lowBytesFrom s.mem (s.reg 0) n) := by
  rw [State.puts]
  exact putsLoop_string n Config.memWords (s.reg 0) s hn hs h

theorem puts_failure {k : Nat} (hk : k < 65536) (hz : ∀ j, j ≤ k → s.mem.read (s.reg 0 + BitVec.ofNat 16 j) ≠ 0)
    (h : s.outputFailsAfter k) :
    s.puts = (s.afterOutput (lowBytesFrom s.mem (s.reg 0) k)).takeVerdict.raise .ioError := by
  rw [State.puts]
  exact putsLoop_failure k Config.memWords (s.reg 0) s hk hz h

theorem puts_endless (hz : ∀ a, s.mem.read a ≠ 0) (h : s.outputAccepts 65536) :
    s.puts = (s.afterOutput (lowBytesFrom s.mem (s.reg 0) 65536)).holdIn .puts := by
  rw [State.puts]
  exact putsLoop_endless Config.memWords (s.reg 0) s (fun _ _ => hz _) h

@[simp] theorem lowBytesFrom_length (m : Memory) (a : Word) (n : Nat) : (lowBytesFrom m a n).length = n := by
  simp [lowBytesFrom]

/-- Settles O37: PUTS is `afterOutput` of the string's low bytes. -/
theorem putsWritesString : Obligations.PutsWritesString := by
  intro s n hn hs hacc
  obtain ⟨hexec, hkeep⟩ := exec_service .puts rfl (.puts s) (puts_string hn hs hacc)
  exact ⟨_, hexec, by simp [hkeep, KeepsInput, KeepsCall]⟩

/-- Settles O38: PUTS is `afterOutput` of the low bytes before the failure, and then the failed call. -/
theorem putsFailureKeepsWritten : Obligations.PutsFailureKeepsWritten := by
  intro s k hk hz hfail
  obtain ⟨hexec, hkeep⟩ := exec_service .puts rfl (.puts s) (puts_failure hk hz hfail)
  exact ⟨_, hexec, by simp [hkeep, KeepsInput]⟩

end Puts

/-! ## The statements on GETC, OUT and IN -/

/-- Settles O35: GETC is `writeReg` of the character taken from the input. -/
theorem getcReadsOneCharacter : Obligations.GetcReadsOneCharacter := by
  intro s c rest hin
  obtain ⟨hexec, hkeep⟩ := exec_service .getc rfl (.getc s) (getc_char hin)
  have htrace : Traced _ s _ := .writeReg s.takeInput_trace s.takeInput_tracing 0 (zext c)
  exact ⟨_, hexec, by simpa [hin, zext, KeepsOutput, KeepsCall] using ⟨hkeep, htrace⟩⟩

/-- Settles O36: OUT is one output call. -/
theorem outWritesLowByte : Obligations.OutWritesLowByte := by
  refine ⟨fun w hop hv => decodeWord_service hop hv, fun s => ⟨fun hacc => ?_, fun hfail => ?_⟩⟩
  · obtain ⟨hexec, hkeep⟩ := exec_service .out rfl (.out s) (out_accepts hacc)
    exact ⟨_, hexec, rfl, by simp [hkeep, KeepsInput, KeepsCall]⟩
  · obtain ⟨hexec, hkeep⟩ := exec_service .out rfl (.out s) (out_fails hfail)
    exact ⟨_, hexec, by simp [hkeep, KeepsInput]⟩

/-- Settles O40: IN is its prompt, then the read and the echo, then `writeReg` of the character. -/
theorem inPromptsEchoesStores : Obligations.InPromptsEchoesStores := by
  intro s c rest hin hacc
  obtain ⟨hprompt, hecho⟩ := (s.outputAccepts_add Config.inPrompt 1).1 hacc
  have hchar := inAfterPrompt_char (s := s.afterOutput Config.inPrompt) hin hecho
  obtain ⟨hexec, hkeep⟩ := exec_service .in_ rfl (.inWith _ s) ((inWith_prompt hprompt).trans hchar)
  have htrace : Traced _ s _ := .writeReg (t := ((s.afterOutput Config.inPrompt).takeInput.takeVerdict.appendOutput c))
    (by simp) (by simp) 0 (zext c)
  exact ⟨_, hexec, by simpa [hin, zext, KeepsCall] using ⟨hkeep, htrace⟩⟩

/-- Settles O41: both services end at the read, IN after its prompt. -/
theorem inputFailureKeepsR0 : Obligations.InputFailureKeepsR0 := by
  intro s hfail
  refine ⟨?_, fun hprompt => ?_⟩
  · have hread : s.getc = s.takeInput.raise .ioError := continueService_read_fails (v := .getc) nofun hfail
    obtain ⟨hexec, hkeep⟩ := exec_service .getc rfl (.getc s) hread
    exact ⟨_, hexec, by simp [hkeep, KeepsRegs, KeepsOutput]⟩
  · have hread : (s.afterOutput Config.inPrompt).inAfterPrompt = _ := continueService_read_fails (v := .in_) nofun hfail
    obtain ⟨hexec, hkeep⟩ := exec_service .in_ rfl (.inWith _ s) ((inWith_prompt hprompt).trans hread)
    exact ⟨_, hexec, by simp [hkeep, KeepsRegs]⟩

/-- Settles O42: the failed call is the last one, in the prompt or at the echo. -/
theorem inOutputFailureKeepsR0 : Obligations.InOutputFailureKeepsR0 := by
  refine ⟨fun _ => rfl, fun prompt s t k hk hfail ht => ?_, fun prompt s t c rest hin hfail ht => ?_⟩
  all_goals have hkeep : KeepsMachine s t := ht ▸ (ServiceFrame.inWith prompt s).keepsMachine
  · cases ht.trans (inWith_prompt_fails hk hfail)
    simp [hkeep, KeepsRegs, KeepsInput]
  · have hecho : (s.afterOutput prompt).inAfterPrompt = _ :=
      inAfterPrompt_echo_fails hin (State.outputFailing_afterOutput hfail)
    cases ht.trans ((inWith_prompt hfail.1).trans hecho)
    simp [hkeep, hin, KeepsRegs]

end Sys2Proof.Machine
end

section
/-! Held calls (R114, R153, R160, R162): the step that leaves a call held, the step that ends it, and what each held
service comes to. -/

namespace Sys2Proof.Machine

/-! ## The two ends of a step of a held call -/

section HeldCall
variable {s q : State} {h : Hold}

/-- The service still holds: the call stays held as it was, with what the service has done. -/
theorem step_stays_held (hh : s.hold = some h)
    (hq : ({ s with hold := none } : State).continueService h.service = q.holdIn h.service) :
    step s = .next { q with hold := some h } := by
  rw [step_held hh, State.continueCall, hq]
  rfl

/-- The service has ended: the frame of the call, and that its last rising edge touches nothing else the service has
written. -/
theorem step_ends_held {evs : List Event} (hh : s.hold = some h)
    (hq : ({ s with hold := none } : State).continueService h.service = q) (hend : q.hold = none)
    (ht : Traced evs s q) :
    ∃ t, step s = .next t ∧ EndsHeldCall h evs s t ∧ KeepsRegs q t ∧ KeepsStreams q t ∧ t.report = q.report := by
  obtain ⟨hends, e⟩ := State.continueCall_ends hq hend ht
  refine ⟨_, step_held hh, hends, ?_⟩
  rw [e]
  split <;> simp [KeepsRegs, KeepsStreams, KeepsInput, KeepsOutput]

end HeldCall

/-- Settles O39: a lap is `afterOutput` of 65536 low bytes and leaves the call held, in the TRAP's own step and in every
later one. -/
theorem putsWithoutZeroWordHolds : Obligations.PutsWithoutZeroWordHolds := by
  intro s hz hacc
  refine ⟨?_, fun b hh => ?_⟩
  · obtain ⟨hexec, hkeep⟩ := exec_service .puts rfl (.puts s) (puts_endless hz hacc)
    exact ⟨_, hexec, by simp [hkeep]⟩
  · have hlap := puts_endless (s := { s with hold := none }) hz hacc
    have hkeep : KeepsMachine { s with hold := none } _ := hlap ▸ (ServiceFrame.puts _).keepsMachine
    exact ⟨_, step_stays_held hh hlap, rfl, { hkeep with }, rfl⟩

/-- A held GETC or IN that has its character: the frame of the call, and R0. -/
theorem step_ends_with_char {s q : State} {h : Hold} {c : Byte} (hh : s.hold = some h)
    (hq : ({ s with hold := none } : State).continueService h.service = q.writeReg 0 (zext c)) (hend : q.hold = none)
    (hlog : q.trace = s.trace) (hon : q.tracing = s.tracing) :
    ∃ t, step s = .next t ∧ EndsHeldCall h [.registerWrite (.gpr 0) (c.setWidth 16)] s t ∧ t.reg 0 = c.setWidth 16 ∧
      KeepsStreams q t ∧ t.report = q.report := by
  obtain ⟨t, hstep, hends, hregs, hstreams, hrep⟩ := step_ends_held hh hq hend (.writeReg hlog hon 0 (zext c))
  exact ⟨t, hstep, hends, (hregs 0).trans (State.reg_writeReg_same q 0 (zext c)), hstreams, hrep⟩

/-- Settles O43: without a character the service is `holdIn`; with one it ends in `writeReg`, and so does the call. -/
theorem inputServicesWaitForHost : Obligations.InputServicesWaitForHost := by
  refine ⟨fun s hin hopen => ⟨?_, fun hprompt => ?_⟩, fun s h hh hv hin hopen => ?_,
    fun s ⟨v, b⟩ c rest hh hin => ⟨fun hv => ?_, fun hv hacc => ?_⟩⟩
  · exact congrArg Host.Outcome.next (continueService_waits (v := .getc) nofun hin hopen)
  · have hwait : (s.afterOutput Config.inPrompt).inAfterPrompt = _ := continueService_waits (v := .in_) nofun hin hopen
    obtain ⟨hexec, hkeep⟩ := exec_service .in_ rfl (.inWith _ s) ((inWith_prompt hprompt).trans hwait)
    exact ⟨_, hexec, by simp [hkeep, KeepsRegs, KeepsInput]⟩
  · have hwait := continueService_waits (s := { s with hold := none }) hv hin hopen
    rw [step_stays_held hh hwait, ← hh]
  · cases hv
    have hgetc := getc_char (s := { s with hold := none }) hin
    obtain ⟨t, hstep, hends, hreg, ⟨⟨hin', hclosed⟩, hout⟩, hrep⟩ := step_ends_with_char hh hgetc rfl rfl rfl
    exact ⟨t, hstep, hends, hreg, hin'.trans (congrArg List.tail hin), hclosed, hout, hrep⟩
  · cases hv
    have hchar := inAfterPrompt_char (s := { s with hold := none }) hin hacc
    obtain ⟨t, hstep, hends, hreg, ⟨⟨hin', hclosed⟩, hout, -⟩, hrep⟩ := step_ends_with_char hh hchar rfl rfl rfl
    exact ⟨t, hstep, hends, hreg, hin'.trans (congrArg List.tail hin), hclosed, hout, hrep⟩

/-- Settles O55: the service comes to its failed stream call and the error, and the call ends there. -/
theorem heldCallFailureReportsIoError : Obligations.HeldCallFailureReportsIoError := by
  intro s ⟨v, b⟩ hh
  refine ⟨fun hv hfail => ?_, fun hv c rest hin hfail => ?_, fun hv k hk hz hfail => ?_⟩
  · have hread := continueService_read_fails (s := { s with hold := none }) hv hfail
    obtain ⟨t, hstep, hends, hregs, ⟨-, hout⟩, hrep⟩ := step_ends_held hh hread rfl (.nil rfl)
    exact ⟨t, hstep, hends, hregs, hout, hrep⟩
  · cases hv
    have hecho := inAfterPrompt_echo_fails (s := { s with hold := none }) hin hfail
    obtain ⟨t, hstep, hends, hregs, ⟨⟨hin', hclosed⟩, hout, -⟩, hrep⟩ := step_ends_held hh hecho rfl (.nil rfl)
    exact ⟨t, hstep, hends, hregs, hin'.trans (congrArg List.tail hin), hclosed, hout, hrep⟩
  · cases hv
    have hputs := puts_failure (s := { s with hold := none }) hk hz hfail
    obtain ⟨t, hstep, hends, hregs, ⟨hin, hout, -⟩, hrep⟩ := step_ends_held hh hputs rfl (.nil rfl)
    exact ⟨t, hstep, hends, hregs, hin, hout, hrep⟩

end Sys2Proof.Machine
end

section
/-! The words that change nothing but the run and what is reported (R155 to R158): HALT, a TRAP with an unknown vector,
and the two faulting opcodes, alone and as the word a step runs. -/

namespace Sys2Proof.Machine

/-! ## The steps that run them -/

/-- An unknown vector changes nothing that a program can see either (R156). -/
theorem PastWord.raise {s p : State} (h : PastWord s p) (e : ErrorKind) : PastWord s (p.raise e) := { h with }

theorem PastWord.keepsRegs {s t : State} (h : PastWord s t) : KeepsRegs s t := State.reg_congr h.regs

theorem PastWord.keepsMemory {s t : State} (h : PastWord s t) : KeepsMemory s t := fun a => by rw [h.mem]

/-- The step of a word whose instruction leaves what `PastWord` names: its last edge leaves it too. -/
theorem step_past_word {i : Instr} {s u : State} (hh : s.hold = none) (hrun : s.isRunning = true)
    (hi : decodeWord s.nextWord = i) (hexec : exec i s.prepared = .next u) (hpast : PastWord s u) :
    step s = .next u.raiseClock ∧ PastWord s u.raiseClock :=
  ⟨step_fetched hh hrun hi hexec hpast.noHold, u.endStep_hold_none hpast.noHold ▸ hpast.endStep⟩

/-- The next step runs the word after. -/
theorem PastWord.next_latch {s t u : State} (h : PastWord s t) (hrun : t.isRunning = true) (hstep : step t = .next u) :
    u.instr = some (s.mem.read (s.pc + 1)) := by
  rw [latchKeepsFetchedWord t u h.noHold hrun hstep, h.mem, h.pc]

/-- The events of a step whose instruction adds none (R113). -/
theorem traced_step_of_silent {s u : State} (hlog : u.trace = s.prepared.trace) (hon : u.tracing = s.tracing)
    (hlow : u.clk = false) :
    Traced ((if s.clk then [] else [.edgeRising]) ++
      [.edgeFalling, .fetch s.nextWord, .decode s.nextWord (decodeWord s.nextWord).rowClass, .edgeRising])
      s u.raiseClock := by
  have hrising : Traced [.edgeRising] s.prepared u.raiseClock := by
    rw [Traced, State.raiseClock_trace, hlow, hlog, hon, State.prepared_tracing]
    cases s.tracing <;> simp
  simpa using s.prepared_trace.trans s.prepared_tracing hrising

/-! ## HALT (R155) -/

theorem startOp_next {s : State} (hh : s.hold = none) : startOp s = .next { s with isRunning := true } := by
  simp [startOp, betweenCalls, hh]

/-- A falling edge after a step that has stopped the engine and reported nothing: the level and the event (R107). -/
theorem setClock_false_recorded {t : State} (hh : t.hold = none) (hrun : t.isRunning = false) (hhigh : t.clk = true)
    (hseen : t.edgeSeen = true) (hrep : t.report = none) :
    ∃ u, setClock false t = .next u ∧ Traced [.edgeFalling] t u ∧ u = { t with clk := false, trace := u.trace } := by
  obtain ⟨u, hu, htrace, e⟩ := haltedEdgesOnlyRecord.1 t hh hrun hhigh
  refine ⟨u, hu, htrace, ?_⟩
  rw [e, hseen, hrep]

/-- Settles O44: the step leaves HALT's state, past its word; the rest is what an engine that does not run does, and
what `start` does. -/
theorem haltEndsRun : Obligations.HaltEndsRun := by
  refine ⟨fun w hop hv => decodeWord_service hop hv, by decide, fun s => ⟨s.halt, rfl, rfl, .emit s .halt, rfl⟩,
    fun s hh hrun hw => ?_⟩
  obtain ⟨hstep, hpast⟩ := step_past_word hh hrun hw rfl (PastWord.prepared hh).halt
  have hstop : s.prepared.halt.raiseClock.isRunning = false := State.raiseClock_isRunning _
  have hrep : s.prepared.halt.raiseClock.report = none := by simp [State.halt]
  have hseen : s.prepared.halt.raiseClock.edgeSeen = true := by simp [State.halt]
  have hpast' : PastWord s { s.prepared.halt.raiseClock with isRunning := true } := { hpast with }
  exact ⟨_, hstep, ⟨⟨.inl hstep, hrun, hstop⟩, hrep⟩, hpast.pc, hpast.keepsRegs, hpast.flags, hpast.keepsMemory,
    hpast.streams, setClock_false_recorded hpast.noHold hstop (State.raiseClock_clk _) hseen hrep,
    _, startOp_next hpast.noHold, rfl, fun v => hpast'.next_latch rfl⟩

/-! ## A TRAP with an unknown vector (R156) -/

section UnknownTrap
variable {v : BitVec 8} (hv : v ∉ serviceVectors)
include hv

theorem trapInstr_unknown : trapInstr v = .trap v := trapInstr_wf v (by simpa [Instr.wf] using hv)

theorem exec_trap_unknown (s : State) : exec (.trap v) s = .next (s.raise .unknownTrap) := by
  simp [serviceVectors] at hv
  simp [exec, execTrap, State.trap, hv]

end UnknownTrap

theorem not_mem_serviceVectors_iff (v : BitVec 8) :
    v ∉ serviceVectors ↔ v.toNat ≤ 0x1F ∨ v.toNat = 0x24 ∨ 0x26 ≤ v.toNat := by
  simp [serviceVectors, ← BitVec.toNat_inj]
  omega

/-- Settles O45: the step leaves `raise`'s state, past the TRAP. -/
theorem unknownTrapReportsOnly : Obligations.UnknownTrapReportsOnly := by
  refine ⟨fun w hop hv => ?_, not_mem_serviceVectors_iff, fun v s hv => exec_trap_unknown hv s,
    fun s v hh hrun hw hv => ?_⟩
  · rw [decodeWord_trap hop, trapInstr_unknown hv]
  · obtain ⟨hstep, hpast⟩ :=
      step_past_word hh hrun hw (exec_trap_unknown hv _) ((PastWord.prepared hh).raise .unknownTrap)
    have hrun' : (s.prepared.raise .unknownTrap).raiseClock.isRunning = true := by simpa using hrun
    have htrace := traced_step_of_silent (u := s.prepared.raise .unknownTrap) rfl s.prepared_tracing s.prepared_clk
    rw [State.nextWord, hw] at htrace
    exact ⟨_, hstep, by simp, hrun', hpast.pc, hpast.latch, hpast.keepsRegs, hpast.flags, hpast.keepsMemory,
      hpast.streams, hpast.noHold, htrace, fun u => hpast.next_latch hrun'⟩

/-! ## The faulting opcodes (R157, R158) -/

theorem decodeWord_illegal {w : Word} (h : bits w 12 4 = 0b1101 ∨ bits w 12 4 = 0b1000) :
    decodeWord w = .reserved1101 ∨ decodeWord w = .unlisted1000 := by
  rcases h with h | h
  · exact .inl (by rw [decodeWord, h]; rfl)
  · exact .inr (by rw [decodeWord, h]; rfl)

theorem exec_illegal {i : Instr} (h : i = .reserved1101 ∨ i = .unlisted1000) (s : State) :
    exec i s = .next s.illegalOpcode := by
  rcases h with rfl | rfl <;> rfl

/-- Settles O46: the step leaves `illegalOpcode`'s state, past the word, which ends the run by a fault. -/
theorem illegalOpcodeEndsRunByFault : Obligations.IllegalOpcodeEndsRunByFault := by
  refine ⟨fun s => ⟨exec_illegal (.inl rfl) s, exec_illegal (.inr rfl) s⟩, fun s hh hrun hop => ?_⟩
  have hexec := exec_illegal (decodeWord_illegal hop) s.prepared
  obtain ⟨hstep, hpast⟩ := step_past_word hh hrun rfl hexec (PastWord.prepared hh).illegalOpcode
  have hfault : FaultEnd s s.prepared.illegalOpcode.raiseClock :=
    ⟨⟨.inl hstep, hrun, State.raiseClock_isRunning _⟩, State.raiseClock_report _⟩
  exact ⟨_, hstep, hfault, hfault.not_normal, hpast.pc, hpast.latch, hpast.keepsRegs, hpast.flags, hpast.keepsMemory,
    hpast.streams, traced_step_of_silent rfl s.prepared_tracing s.prepared_clk⟩

end Sys2Proof.Machine
end

section
/-! What an instruction can report (R115, R170): at most one error kind, fixed by the instruction; the character services
may report theirs or nothing, every other instruction with an error kind reports it every time. -/

namespace Sys2Proof.Machine

/-- The one error kind an instruction can report (R170): its cause, read off the instruction. -/
def causedError : Instr → Option ErrorKind
  | .reserved1101 | .unlisted1000 => some .illegalOpcode
  | .trap _ => some .unknownTrap
  | .getc | .out | .puts | .in_ => some .ioError
  | _ => none

theorem causedError_eq_illegalOpcode (i : Instr) :
    causedError i = some .illegalOpcode ↔ i = .reserved1101 ∨ i = .unlisted1000 := by
  cases i <;> simp [causedError]

theorem causedError_eq_unknownTrap (i : Instr) : causedError i = some .unknownTrap ↔ ∃ v, i = .trap v := by
  cases i <;> simp [causedError]

theorem causedError_eq_ioError (i : Instr) :
    causedError i = some .ioError ↔ i = .getc ∨ i = .out ∨ i = .puts ∨ i = .in_ := by
  cases i <;> simp [causedError]

section Reports
variable {s t : State}

/-- A character service reports nothing or `IoError` (R162). -/
theorem IoFrame.report_cases (h : IoFrame s t) (hrep : s.report = none) :
    t.report = some .ioError ∨ t.report = none := by
  obtain ⟨-, hsame | hio⟩ := h
  · exact .inr (hsame.trans hrep)
  · exact .inl hio

/-- What an instruction reports, where nothing was reported before it. -/
theorem exec_report {i : Instr} (hwf : i.wf = true) (he : exec i s = .next t) (hrep : s.report = none) :
    t.report = causedError i ∨ (causedError i = some .ioError ∧ t.report = none) := by
  cases i with
  | reserved1101 | unlisted1000 => cases he; exact .inl rfl
  | trap v =>
    cases (exec_trap_unknown (by simpa [Instr.wf] using hwf) s).symm.trans he
    exact .inl rfl
  | getc => cases he; exact ((IoFrame.getc s).report_cases hrep).imp_right (.intro rfl)
  | out => cases he; exact ((IoFrame.out s).report_cases hrep).imp_right (.intro rfl)
  | puts => cases he; exact ((IoFrame.puts s).report_cases hrep).imp_right (.intro rfl)
  | in_ => cases he; exact ((IoFrame.inWith Config.inPrompt s).report_cases hrep).imp_right (.intro rfl)
  | br | nop => cases he; unfold State.branch; split <;> exact .inl hrep
  | halt | addReg | addImm | andReg | andImm | notReg | ld | ldi | ldr | lea | st | sti | str | jmp | ret | jsr | jsrr =>
    cases he; exact .inl hrep

/-- A step of a running engine reports what its instruction does: the call begins with nothing reported. -/
theorem step_report (hh : s.hold = none) (hrun : s.isRunning = true) (hstep : step s = .next t) :
    t.report = causedError (decodeWord s.nextWord) ∨
      (causedError (decodeWord s.nextWord) = some .ioError ∧ t.report = none) := by
  obtain ⟨u, hu, e⟩ := step_running hh hrun
  cases e.symm.trans hstep
  rw [State.endStep_report]
  exact exec_report (decodeWord_wf s.nextWord) hu s.prepared_report

/-- A held call that goes on reports nothing new but `IoError`. -/
theorem step_held_report (hh : s.hold ≠ none) (hstep : step s = .next t) :
    t.report = s.report ∨ t.report = some .ioError := by
  obtain ⟨h, hh⟩ := Option.ne_none_iff_exists'.1 hh
  cases (step_held hh).symm.trans hstep
  exact (s.continueCall_io h).2

end Reports

/-- Settles O48: a step reports its instruction's error kind, and may leave it out only where that is `IoError`. -/
theorem errorsOnlyFromTheirCauses : Obligations.ErrorsOnlyFromTheirCauses := by
  refine ⟨fun s t => step_held_report, fun s t hh hrun hstep => ?_⟩
  rw [← causedError_eq_illegalOpcode, ← causedError_eq_unknownTrap, ← causedError_eq_ioError, ← State.nextWord]
  rcases step_report hh hrun hstep with hrep | ⟨hio, hrep⟩
  · rw [hrep]
    exact ⟨.rfl, .rfl, id⟩
  · simp [hio, hrep]

end Sys2Proof.Machine
end

section
/-! The driver's operations (R100, R201, R202, R209, R212): refused while a call holds, and what each keeps of the
invariant. -/

namespace Sys2Proof.Machine

/-! ## An operation that needs the engine between calls -/

section BetweenCalls
variable {op : State → Host.Outcome State Fault Refusal} {s t : State}

theorem betweenCalls_held (hh : s.hold ≠ none) : betweenCalls op s = .refused .callInProgress := by
  simp [betweenCalls, Option.isSome_iff_ne_none, hh]

theorem setClock_held (hh : s.hold ≠ none) (b : Bool) : setClock b s = .refused .callInProgress := by
  simp [setClock, Option.isSome_iff_ne_none, hh]

theorem hold_none_of_betweenCalls (h : betweenCalls op s = .next t) : s.hold = none := by
  by_contra hh
  cases (betweenCalls_held hh).symm.trans h

theorem setTracing_next (hh : s.hold = none) (b : Bool) : setTracing b s = .next { s with tracing := b } := by
  simp [setTracing, betweenCalls, hh]

end BetweenCalls

/-- Settles O51: `start` and `set_tracing` are their one write between calls, and every operation on the engine is refused
while a call holds. -/
theorem startAndSetTracing : Obligations.StartAndSetTracing :=
  ⟨fun _ hh => ⟨startOp_next hh, setTracing_next hh⟩, fun _ hh => ⟨betweenCalls_held hh, fun b =>
    ⟨betweenCalls_held hh, setClock_held hh b, betweenCalls_held hh, fun _ _ => betweenCalls_held hh⟩⟩⟩

/-! ## The invariant -/

section Invariant
variable {s t : State}

/-- Between calls, a change that leaves the clock level and the latch need only keep memory canonical. -/
theorem EngineInv.betweenCalls (hs : EngineInv s) (hmem : t.mem.wf = true) (hclk : t.clk = s.clk)
    (hlatch : t.instr = s.instr) (hseen : t.edgeSeen = s.edgeSeen) (hh : t.hold = none) : EngineInv t where
  memory := hmem
  clockSeen := by simpa [hclk, hseen] using hs.clockSeen
  latchSeen := by simpa [hlatch, hseen] using hs.latchSeen
  hold := by simp [hh]

/-- A single edge (R100): the falling one of a running engine is the only one with a cascade. -/
theorem EngineInv.setClock {b : Bool} (hs : EngineInv s) (h : setClock b s = .next t) : EngineInv t := by
  obtain ⟨hh, ⟨-, rfl⟩ | ⟨-, -, rfl⟩ | ⟨-, -, -, rfl⟩ | ⟨-, -, hrun, hexec⟩⟩ := setClock_cases h
  · exact hs.beginCall hh
  · exact (hs.beginCall hh).raiseClock hh
  · exact (hs.beginCall hh).recordFalling hh
  · exact (InCascade.beforeExecute (s := s.beginCall) hs.memory hrun rfl hh).exec hexec

/-- A reset leaves the state after construction over a canonical memory: the one before, or the empty one (R201). -/
theorem EngineInv.resetOp {preserve : Bool} (hs : EngineInv s) (h : resetOp preserve s = .next t) : EngineInv t := by
  cases betweenCalls_next h
  have hmem : (s.afterReset preserve).mem.wf = true := by
    cases preserve
    · exact resetMeetsInvariant.memory
    · exact hs.memory
  exact resetMeetsInvariant.betweenCalls hmem rfl rfl rfl rfl

theorem EngineInv.startOp (hs : EngineInv s) (h : startOp s = .next t) : EngineInv t := by
  have hh := hold_none_of_betweenCalls h
  cases betweenCalls_next h
  exact hs.betweenCalls hs.memory rfl rfl rfl hh

theorem EngineInv.setTracing {b : Bool} (hs : EngineInv s) (h : setTracing b s = .next t) : EngineInv t := by
  have hh := hold_none_of_betweenCalls h
  cases betweenCalls_next h
  exact hs.betweenCalls hs.memory rfl rfl rfl hh

/-- Where the loader answers a state, it has written the words and the PC (R61). -/
theorem eq_of_loadImage {origin : Word} {words : List Word} {wrap : Bool} (h : loadImage origin words wrap s = .next t) :
    t = { s with mem := s.mem.writeAll origin words, pc := origin } := by
  have hload := betweenCalls_next h
  split at hload
  · cases hload
  · split at hload
    · cases hload
    · exact (Host.Outcome.next.inj hload).symm

theorem EngineInv.loadImage {origin : Word} {words : List Word} {wrap : Bool} (hs : EngineInv s)
    (h : loadImage origin words wrap s = .next t) : EngineInv t := by
  have hh := hold_none_of_betweenCalls h
  rw [eq_of_loadImage h]
  exact hs.betweenCalls (s.mem.wf_writeAll words origin hs.memory) rfl rfl rfl hh

/-! The invariant says nothing of the streams, whether a call holds or not (R209). -/

theorem EngineInv.supplyInput (hs : EngineInv s) (items : List InItem) : EngineInv (s.supplyInput items) :=
  { hs with hold := fun h hh => { hs.hold h hh with } }

theorem EngineInv.setInputClosed (hs : EngineInv s) (b : Bool) : EngineInv (s.setInputClosed b) :=
  { hs with hold := fun h hh => { hs.hold h hh with } }

theorem EngineInv.setOutput (hs : EngineInv s) (fails : List Bool) (closed : Bool) :
    EngineInv (s.setOutput fails closed) :=
  { hs with hold := fun h hh => { hs.hold h hh with } }

end Invariant

/-- Settles O4: one lemma per operation. -/
theorem driverKeepsInvariant : Obligations.DriverKeepsInvariant :=
  fun _ _ hs => ⟨fun _ => hs.setClock, fun _ => hs.resetOp, hs.startOp, fun _ => hs.setTracing, fun _ _ _ => hs.loadImage,
    hs.supplyInput, hs.setInputClosed, hs.setOutput⟩

end Sys2Proof.Machine
end
